-- ==== Sys2Proof/Word.lean ====
section
/-! DEFINITION. The machine word, the byte, and nothing else (00_scope.md R7, R14). -/

namespace Sys2Proof

/-- XLEN = 32: a register, a bus, an instruction, an address (00_scope.md R7). -/
abbrev Word := BitVec 32

/-- One byte of data memory (00_scope.md R14). -/
abbrev Byte := BitVec 8

end Sys2Proof
end

