-- ==== Sys2Proof/Machine/Control.lean ====
section
/-! DEFINITION. The ALU opcodes, the control-signal bundle, the bundle of every instruction, and the exclusions a bundle meets. -/

namespace Sys2Proof.Machine

/-- The eight ALU operations (40_circuit_primitives.md R78). -/
inductive AluOp
  | and | or | xor | nor | add | sub | slt | null
  deriving DecidableEq, Repr, Inhabited

/-- The 3-bit opcode of each ALU operation (40_circuit_primitives.md R78). -/
def AluOp.code : AluOp → BitVec 3
  | .and => 0b000#3
  | .or => 0b001#3
  | .xor => 0b010#3
  | .nor => 0b011#3
  | .add => 0b100#3
  | .sub => 0b101#3
  | .slt => 0b110#3
  | .null => 0b111#3

/-- The control-signal bundle `Ctl`, a record (10_state.md R25; D19, log 19). -/
structure Ctl where
  regDst : Bool
  aluSrc : Bool
  dataSrcToReg : Bool
  regWrite : Bool
  memRead : Bool
  memWrite : Bool
  branch : Bool
  jump : Bool
  aluOp : AluOp
  deriving DecidableEq, Repr, Inhabited

/-- The bundle of the all-zero word, which a flush injects too (41_decoder.md R87). -/
def ctlNop : Ctl :=
  { regDst := false, aluSrc := false, dataSrcToReg := false, regWrite := false, memRead := false, memWrite := false,
    branch := false, jump := false, aluOp := .and }

/-- The R-type row with its ALU operation (41_decoder.md R85). -/
def ctlRType (op : AluOp) : Ctl := { ctlNop with regDst := true, regWrite := true, aluOp := op }

/-- "Per funct" for the five R-type instructions (41_decoder.md R86). -/
def ctlAdd : Ctl := ctlRType .add

@[inherit_doc ctlAdd] def ctlSub : Ctl := ctlRType .sub

@[inherit_doc ctlAdd] def ctlAnd : Ctl := ctlRType .and

@[inherit_doc ctlAdd] def ctlOr : Ctl := ctlRType .or

@[inherit_doc ctlAdd] def ctlSlt : Ctl := ctlRType .slt

/-- ADDI's row (41_decoder.md R85). -/
def ctlAddi : Ctl := { ctlNop with aluSrc := true, regWrite := true, aluOp := .add }

/-- LW's row (41_decoder.md R85). -/
def ctlLw : Ctl := { ctlNop with aluSrc := true, dataSrcToReg := true, regWrite := true, memRead := true, aluOp := .add }

/-- SW's row; data_src_to_reg is a don't-care that the spec resolves to 0 (41_decoder.md R85, log 8). -/
def ctlSw : Ctl := { ctlNop with aluSrc := true, memWrite := true, aluOp := .add }

/-- BEQ's row; reg_dst and data_src_to_reg are don't-cares resolved to 0 (41_decoder.md R85, log 8). -/
def ctlBeq : Ctl := { ctlNop with branch := true, aluOp := .sub }

/-- J's row; every field but the five control bits is a don't-care resolved to 0 (41_decoder.md R85, log 8). -/
def ctlJ : Ctl := { ctlNop with jump := true }

/-- The exclusions every decoded bundle meets (41_decoder.md R89). -/
def Ctl.exclusive (c : Ctl) : Bool :=
  !(c.memRead && c.memWrite) && !(c.branch && c.jump) && (!c.memRead || (c.regWrite && c.dataSrcToReg)) &&
    (!c.memWrite || !c.regWrite) && (!c.branch || c.aluOp == .sub)

/-- The memory half of a bundle that meets R89: no access, a load (which writes a register from memory), or a store
(which writes no register). -/
inductive MemUse
  | idle (regWrite dataSrcToReg : Bool)
  | load
  | store (dataSrcToReg : Bool)
  deriving DecidableEq, Repr, Inhabited

/-- The PC half of a bundle that meets R89: sequential, a branch (whose ALU operation is SUB), or a jump. -/
inductive FlowUse
  | sequential (op : AluOp)
  | branch
  | jump (op : AluOp)
  deriving DecidableEq, Repr, Inhabited

/-- Exactly the bundles R89 allows, as data: the type DECODE_ILLEGAL takes its values in (41_decoder.md R88, R89). -/
structure ExclusiveBundle where
  regDst : Bool
  aluSrc : Bool
  mem : MemUse
  flow : FlowUse
  deriving DecidableEq, Repr, Inhabited

/-- The bundle an `ExclusiveBundle` stands for; `Laws/Control.lean` shows its range is exactly `Ctl.exclusive`. -/
def bundleCtl (b : ExclusiveBundle) : Ctl :=
  let c : Ctl := { ctlNop with regDst := b.regDst, aluSrc := b.aluSrc }
  let c := match b.mem with
    | .idle w d => { c with regWrite := w, dataSrcToReg := d }
    | .load => { c with regWrite := true, dataSrcToReg := true, memRead := true }
    | .store d => { c with dataSrcToReg := d, memWrite := true }
  match b.flow with
  | .sequential op => { c with aluOp := op }
  | .branch => { c with branch := true, aluOp := .sub }
  | .jump op => { c with jump := true, aluOp := op }

end Sys2Proof.Machine
end

