-- ==== Sys2Proof/Machine/Gates.lean ====
section
/-! DEFINITION. The gate layer and the multiplexer, as the combinational functions they compute (00_scope.md R6). -/

namespace Sys2Proof.Machine

/-! ### Gates (40_circuit_primitives.md R68). NAND, NOR, XOR and XNOR are built from NOT, AND and OR alone, as the
source's contract asks. -/

def gateNot (a : Bool) : Bool := !a
def gateAnd (a b : Bool) : Bool := a && b
def gateOr (a b : Bool) : Bool := a || b
def gateXor (a b : Bool) : Bool := gateOr (gateAnd a (gateNot b)) (gateAnd (gateNot a) b)
def gateNor (a b : Bool) : Bool := gateNot (gateOr a b)
def gateNand (a b : Bool) : Bool := gateNot (gateAnd a b)
def gateXnor (a b : Bool) : Bool := gateNot (gateXor a b)

/-- The 2:1 multiplexer: `b` when `sel` is 1, else `a` (40_circuit_primitives.md R69). One `sel` serves every bit of a bus. -/
def select {α : Type} (a b : α) (sel : Bool) : α := if sel then b else a

end Sys2Proof.Machine
end

