-- ==== Sys2Proof/Machine/Flags.lean ====
section
/-! DEFINITION. The condition wires of the ALU and the branch comparator. None is a flag: no register latches any of them
(10_state.md R23). -/

namespace Sys2Proof.Machine

/-- The carry into bit `i` of `a + b + cin`, rippling from the least-significant bit (40_circuit_primitives.md R79). -/
def carryInto {n : Nat} (a b : BitVec n) (cin : Bool) : Nat → Bool
  | 0 => cin
  | i + 1 =>
    gateOr (gateAnd (a.getLsbD i) (b.getLsbD i)) (gateAnd (carryInto a b cin i) (gateXor (a.getLsbD i) (b.getLsbD i)))

/-- carry_out: the carry out of bit n-1 of the adder (40_circuit_primitives.md R83, D17, log 18). -/
def carryOut {n : Nat} (a b : BitVec n) (cin : Bool) : Bool := carryInto a b cin n

/-- The overflow of the difference `d = a - b` (40_circuit_primitives.md R81). -/
def subOverflow {n : Nat} (a b d : BitVec n) : Bool := gateAnd (a.msb != b.msb) (d.msb != a.msb)

/-- The true "less than" of two's complement: sign XOR overflow of the difference (40_circuit_primitives.md R81). -/
def lessThan {n : Nat} (a b d : BitVec n) : Bool := gateXor d.msb (subOverflow a b d)

/-- is_zero: the branch comparator's wire (42_pipeline.md R102). -/
def isZero {n : Nat} (d : BitVec n) : Bool := d == 0

end Sys2Proof.Machine
end

