-- ==== Sys2Proof/Machine/Alu.lean ====
section
/-! DEFINITION. The ALU, for every bus width (40_circuit_primitives.md R77 to R83). The core uses width 32. -/

namespace Sys2Proof.Machine

/-- The adder's result: the exact sum of the unsigned values, narrowed to the width (40_circuit_primitives.md R79). -/
def adder {n : Nat} (a b : BitVec n) (cin : Bool) : BitVec n := BitVec.ofNat n (a.toNat + b.toNat + cin.toNat)

/-- The result of `compute(a, b, cin_base, opcode)` (40_circuit_primitives.md R78). SUB and SLT force the carry-in to 1. -/
def aluResult {n : Nat} (a b : BitVec n) (cinBase : Bool) : AluOp → BitVec n
  | .and => a &&& b
  | .or => a ||| b
  | .xor => a ^^^ b
  | .nor => ~~~(a ||| b)
  | .add => adder a b cinBase
  | .sub => adder a (~~~b) true
  | .slt => (BitVec.ofBool (lessThan a b (adder a (~~~b) true))).setWidth n
  | .null => 0

/-- The carry_out of `compute(a, b, cin_base, opcode)` (40_circuit_primitives.md R83; D17, log 18). -/
def aluCarry {n : Nat} (a b : BitVec n) (cinBase : Bool) : AluOp → Bool
  | .add => carryOut a b cinBase
  | .sub | .slt => carryOut a (~~~b) true
  | .and | .or | .xor | .nor | .null => false

/-- `compute(a, b, cin_base, opcode) -> (result, carry_out)` (40_circuit_primitives.md R77). -/
def compute {n : Nat} (a b : BitVec n) (cinBase : Bool) (op : AluOp) : BitVec n × Bool :=
  (aluResult a b cinBase op, aluCarry a b cinBase op)

end Sys2Proof.Machine
end

