-- ==== Sys2Proof/Syntax.lean ====
section
/-! DEFINITION. The instructions: one constructor per row of spec/opcode_table.json. -/

namespace Sys2Proof

/-- An instruction with every bit its encoding leaves to it. A register operand is the number of a 5-bit field, 0 to 31;
it names the register of its low two bits (10_state.md R17, 30_encoding.md R58). `shamt` has no meaning (R55) but is kept,
because ID/EX latches its bits (42_pipeline.md R99). Operands stand in the assembler's order (30_encoding.md R65). -/
inductive Instr
  | add (rd rs rt : Nat) (shamt : BitVec 5)
  | sub (rd rs rt : Nat) (shamt : BitVec 5)
  | and (rd rs rt : Nat) (shamt : BitVec 5)
  | or (rd rs rt : Nat) (shamt : BitVec 5)
  | slt (rd rs rt : Nat) (shamt : BitVec 5)
  | addi (rt rs : Nat) (imm : BitVec 16)
  | lw (rt : Nat) (imm : BitVec 16) (rs : Nat)
  | sw (rt : Nat) (imm : BitVec 16) (rs : Nat)
  | beq (rs rt : Nat) (off : BitVec 16)
  | j (addr26 : BitVec 26)
  | nop
  deriving DecidableEq, Repr

/-- The rows of the opcode map (30_encoding.md R62). -/
inductive Mnemonic
  | ADD | SUB | AND | OR | SLT | ADDI | LW | SW | BEQ | J | NOP
  deriving DecidableEq, Repr

/-- The opcode-map row an instruction belongs to (30_encoding.md R62). -/
def Instr.mnemonic : Instr → Mnemonic
  | .add .. => .ADD
  | .sub .. => .SUB
  | .and .. => .AND
  | .or .. => .OR
  | .slt .. => .SLT
  | .addi .. => .ADDI
  | .lw .. => .LW
  | .sw .. => .SW
  | .beq .. => .BEQ
  | .j .. => .J
  | .nop => .NOP

end Sys2Proof
end

