-- ==== Sys2Proof/WellFormed.lean ====
section
/-! DEFINITION. When an instruction fits its encoding: every register operand is a number of a 5-bit field. The other
operands are bit fields of their exact width, so nothing is left to check of them. -/

namespace Sys2Proof

/-- A register operand is the number of a 5-bit field (30_encoding.md R55, R56). Numbers 4 to 31 alias R0 to R3 and are
well-formed (10_state.md R17). -/
def regNumberFits (n : Nat) : Bool := decide (n < 32)

/-- Every register operand fits its field. -/
def Instr.wellFormed : Instr → Bool
  | .add rd rs rt _ | .sub rd rs rt _ | .and rd rs rt _ | .or rd rs rt _ | .slt rd rs rt _ =>
      regNumberFits rd && regNumberFits rs && regNumberFits rt
  | .addi rt rs _ | .lw rt _ rs | .sw rt _ rs => regNumberFits rt && regNumberFits rs
  | .beq rs rt _ => regNumberFits rs && regNumberFits rt
  | .j _ => true
  | .nop => true

/-- The check, as the proposition that statements take as a premise. -/
abbrev Instr.WellFormed (i : Instr) : Prop := i.wellFormed = true

end Sys2Proof
end

