-- ==== Sys2Proof/Decode.lean ====
section
/-! DEFINITION. The encoding: OPCODE_MAP, the decoder from a word to an instruction or a rejection by name, the encoder,
and the opcode table's match and mask. -/

namespace Sys2Proof

/-! ### OPCODE_MAP (30_encoding.md R62; the MIPS I numbers are the spec's decision D1, PRESUMED, log 4) -/

def opRType : BitVec 6 := 0b000000#6
def opAddi : BitVec 6 := 0x08#6
def opLw : BitVec 6 := 0x23#6
def opSw : BitVec 6 := 0x2B#6
def opBeq : BitVec 6 := 0x04#6
def opJ : BitVec 6 := 0x02#6
def functAdd : BitVec 6 := 0x20#6
def functSub : BitVec 6 := 0x22#6
def functAnd : BitVec 6 := 0x24#6
def functOr : BitVec 6 := 0x25#6
def functSlt : BitVec 6 := 0x2A#6

/-! ### Fields (30_encoding.md R55, R56, R57) -/

/-- opcode, bits [31:26]. -/
def opcodeField (w : Word) : BitVec 6 := w.extractLsb' 26 6
/-- rs, bits [25:21]. -/
def rsField (w : Word) : Nat := (w.extractLsb' 21 5).toNat
/-- rt, bits [20:16]. -/
def rtField (w : Word) : Nat := (w.extractLsb' 16 5).toNat
/-- rd, bits [15:11]. -/
def rdField (w : Word) : Nat := (w.extractLsb' 11 5).toNat
/-- shamt, bits [10:6]. -/
def shamtField (w : Word) : BitVec 5 := w.extractLsb' 6 5
/-- funct, bits [5:0]. -/
def functField (w : Word) : BitVec 6 := w.extractLsb' 0 6
/-- imm16, bits [15:0]. -/
def imm16Field (w : Word) : BitVec 16 := w.extractLsb' 0 16
/-- addr26, bits [25:0]. -/
def addr26Field (w : Word) : BitVec 26 := w.extractLsb' 0 26

/-! ### The decoder -/

/-- Why a word has no opcode-table row (30_encoding.md R64). -/
inductive DecodeError
  /-- opcode 000000 with a funct outside the five legal values, in a word that is not the NOP. -/
  | illegalFunct (funct : BitVec 6)
  /-- one of the 58 opcodes the table does not use. -/
  | unusedOpcode (opcode : BitVec 6)
  deriving DecidableEq, Repr

/-- The row selection of 30_encoding.md R63, in its order. Total on every word; a word with no row is rejected by name. -/
def decode (w : Word) : Except DecodeError Instr :=
  if w = 0#32 then .ok .nop
  else if opcodeField w = opRType then
    if functField w = functAdd then .ok (.add (rdField w) (rsField w) (rtField w) (shamtField w))
    else if functField w = functSub then .ok (.sub (rdField w) (rsField w) (rtField w) (shamtField w))
    else if functField w = functAnd then .ok (.and (rdField w) (rsField w) (rtField w) (shamtField w))
    else if functField w = functOr then .ok (.or (rdField w) (rsField w) (rtField w) (shamtField w))
    else if functField w = functSlt then .ok (.slt (rdField w) (rsField w) (rtField w) (shamtField w))
    else .error (.illegalFunct (functField w))
  else if opcodeField w = opAddi then .ok (.addi (rtField w) (rsField w) (imm16Field w))
  else if opcodeField w = opLw then .ok (.lw (rtField w) (imm16Field w) (rsField w))
  else if opcodeField w = opSw then .ok (.sw (rtField w) (imm16Field w) (rsField w))
  else if opcodeField w = opBeq then .ok (.beq (rsField w) (rtField w) (imm16Field w))
  else if opcodeField w = opJ then .ok (.j (addr26Field w))
  else .error (.unusedOpcode (opcodeField w))

/-! ### The encoder -/

/-- A register number in its 5-bit field. -/
def regField (n : Nat) : BitVec 5 := BitVec.ofNat 5 n

/-- R-type: opcode|rs|rt|rd|shamt|funct (30_encoding.md R55). -/
def encodeR (rd rs rt : Nat) (shamt : BitVec 5) (funct : BitVec 6) : Word :=
  opRType ++ regField rs ++ regField rt ++ regField rd ++ shamt ++ funct

/-- I-type: opcode|rs|rt|imm16 (30_encoding.md R56). -/
def encodeI (op : BitVec 6) (rs rt : Nat) (imm : BitVec 16) : Word := op ++ regField rs ++ regField rt ++ imm

/-- J-type: opcode|addr26 (30_encoding.md R57). -/
def encodeJ (op : BitVec 6) (addr26 : BitVec 26) : Word := op ++ addr26

/-- The word of an instruction (30_encoding.md R55, R56, R57, R62, R65). -/
def encode : Instr → Word
  | .add rd rs rt shamt => encodeR rd rs rt shamt functAdd
  | .sub rd rs rt shamt => encodeR rd rs rt shamt functSub
  | .and rd rs rt shamt => encodeR rd rs rt shamt functAnd
  | .or rd rs rt shamt => encodeR rd rs rt shamt functOr
  | .slt rd rs rt shamt => encodeR rd rs rt shamt functSlt
  | .addi rt rs imm => encodeI opAddi rs rt imm
  | .lw rt imm rs => encodeI opLw rs rt imm
  | .sw rt imm rs => encodeI opSw rs rt imm
  | .beq rs rt off => encodeI opBeq rs rt off
  | .j addr26 => encodeJ opJ addr26
  | .nop => 0#32

/-! ### The opcode table's match and mask (30_encoding.md R62), the second reading of the same map -/

/-- The match column. -/
def opcodeMatch : Mnemonic → Word
  | .ADD => 0x00000020#32
  | .SUB => 0x00000022#32
  | .AND => 0x00000024#32
  | .OR => 0x00000025#32
  | .SLT => 0x0000002A#32
  | .ADDI => 0x20000000#32
  | .LW => 0x8C000000#32
  | .SW => 0xAC000000#32
  | .BEQ => 0x10000000#32
  | .J => 0x08000000#32
  | .NOP => 0x00000000#32

/-- The mask column. -/
def opcodeMask : Mnemonic → Word
  | .ADD | .SUB | .AND | .OR | .SLT => 0xFC00003F#32
  | .ADDI | .LW | .SW | .BEQ | .J => 0xFC000000#32
  | .NOP => 0xFFFFFFFF#32

/-! ### The host's numbering of a table row's bits -/

/-- The instruction word whose low `nbits` bits are `w` and whose other bits are 0. Every instruction is one 32-bit word
(30_encoding.md R54), so the table's numbering is the word's own. -/
def tableWord (nbits w : Nat) : Word := BitVec.ofNat 32 (w % 2 ^ nbits)

/-- What the decoder reads from that word. -/
def decodeTableWord (nbits w : Nat) : Option Instr :=
  match decode (tableWord nbits w) with
  | .ok i => some i
  | .error _ => none

end Sys2Proof
end

