-- ==== Sys2Proof/Config.lean ====
section
/-! DEFINITION. What an implementation fixes (00_scope.md R7, R8) and the two free values of the spec. The encoding's
numbers (OPCODE_MAP, D1) stand in Decode.lean; the launch parameters GPR_INIT and DM_INIT are arguments of
`Machine.launch` in Machine/Launch.lean. -/

namespace Sys2Proof

/-- IMEM_WORDS, the instruction memory's size in words (00_scope.md R7, D26, log 22). -/
def Config.imemWords : Nat := 256

/-- DM_BYTES, the data memory's size in bytes (00_scope.md R7, D26, log 22). -/
def Config.dmBytes : Nat := 4096

/-- IDEX_FLUSH_KEEPS_PC4, the configuration point of 42_pipeline.md R100, default true (D20, log 20). -/
def Config.idExFlushKeepsPc4 : Bool := true

/-- EXC_VECTOR, a free value: the source names the PC mux's exception-vector input and gives it no value
(42_pipeline.md R95, R96, D9, log 10). -/
opaque Config.excVector : Word

/-- DECODE_ILLEGAL, a free function of the word: the bundle of a word with no opcode-table row. Its type holds exactly
the bundles the exclusions of R89 allow (41_decoder.md R88, D4, log 7). -/
opaque Config.decodeIllegal : Word → Machine.ExclusiveBundle

end Sys2Proof
end

