-- ==== Sys2Proof/Machine/State.lean ====
section
/-! DEFINITION. The state of the cycle-level machine (10_state.md), its faults and refusals, and the state after reset. -/

namespace Sys2Proof.Machine

/-- A memory of `w`-bit units: the listed (address, content) pairs, addresses strictly rising, no content equal to what
an unlisted address reads as (`unlisted` in Machine/Ops.lean). -/
abbrev Sparse (w : Nat) := List (Nat × BitVec w)

/-- The data memory, bytes by byte address (10_state.md R33). -/
abbrev Memory := List Host.Cell

/-- The instruction memory, words by word index (10_state.md R32). -/
abbrev Imem := Sparse 32

/-- The register file, R0 to R3 (10_state.md R15). -/
abbrev Regs := Vector Word 4

/-- IF/ID (10_state.md R26). -/
structure IfId where
  instr : Word
  pcPlus4 : Word
  deriving DecidableEq, Repr, Inhabited

/-- ID/EX (10_state.md R27). -/
structure IdEx where
  ctl : Ctl
  rsData : Word
  rtData : Word
  rsIdx : BitVec 2
  rtIdx : BitVec 2
  rdIdx : BitVec 2
  imm : Word
  pcPlus4 : Word
  addr26 : BitVec 26
  deriving DecidableEq, Repr, Inhabited

/-- The bundle mem_single of EX/MEM (10_state.md R28, D28). -/
structure MemBits where
  memRead : Bool
  memWrite : Bool
  deriving DecidableEq, Repr, Inhabited

/-- The bundle wb_single of EX/MEM and MEM/WB (10_state.md R28, R29, D28). -/
structure WbBits where
  regWrite : Bool
  dataSrcToReg : Bool
  deriving DecidableEq, Repr, Inhabited

/-- EX/MEM (10_state.md R28). -/
structure ExMem where
  mem : MemBits
  wb : WbBits
  aluResult : Word
  writeData : Word
  writeRegIdx : BitVec 2
  deriving DecidableEq, Repr, Inhabited

/-- MEM/WB (10_state.md R29). -/
structure MemWb where
  wb : WbBits
  readData : Word
  aluResult : Word
  writeRegIdx : BitVec 2
  deriving DecidableEq, Repr, Inhabited

/-- The committed state between two ticks (10_state.md; 42_pipeline.md R111). -/
structure State where
  /-- R0 to R3 (R15). -/
  regs : Regs
  /-- the fetch address (R19). -/
  pc : Word
  ifId : IfId
  idEx : IdEx
  exMem : ExMem
  memWb : MemWb
  /-- the instruction memory (R32). -/
  imem : Imem
  /-- the data memory (R33). -/
  dm : Memory
  /-- the cycle counter, unbounded and host-readable only (R34). -/
  cycle : Nat
  /-- the spec's sticky model mark: a load or store met a data-memory error (R36, 60_exceptions.md R129). -/
  dmErrorSeen : Bool
  deriving DecidableEq, Repr

/-- The model-only outcomes of 60_exceptions.md R130 that stop a run. The hardware has none of them. -/
inductive Fault
  /-- Raised by the tick when the word it latches into IF/ID lies at a word index of IMEM_WORDS or more (20_memory.md
  R47, R130; log 15). Safe: the source gives no result there. -/
  | fetchOutOfRange
  /-- Raised by the tick when both PC-select bits are 1 (42_pipeline.md R96, R130; log 10). Safe: no decoded bundle
  allows it and the exception vector has no value in the source. -/
  | pcSrcException
  /-- Raised by the tick when both of the above hold in one cycle; R130 records all that apply (log 23). Safe. -/
  | pcSrcExceptionAndFetchOutOfRange
  deriving DecidableEq, Repr

/-- Reasons the model has no meaning for an instruction. -/
inductive Refusal
  /-- Raised by `exec`'s arm of an instruction that has no meaning yet; no arm does. Safe. -/
  | notModelled (mnemonic : String)
  deriving DecidableEq, Repr

/-- The ID/EX content with every field 0 (10_state.md R27). -/
def IdEx.zero : IdEx :=
  { ctl := ctlNop, rsData := 0, rtData := 0, rsIdx := 0, rtIdx := 0, rdIdx := 0, imm := 0, pcPlus4 := 0, addr26 := 0 }

/-- The machine after reset (70_reset_and_hazards.md R146): every register, pipeline field and counter 0, no program
loaded, data memory at its default; logs 11 to 14 and 21 name the values the spec decided. -/
def State.reset : State :=
  { regs := #v[0, 0, 0, 0]
    pc := 0
    ifId := { instr := 0, pcPlus4 := 0 }
    idEx := IdEx.zero
    exMem := { mem := { memRead := false, memWrite := false }, wb := { regWrite := false, dataSrcToReg := false },
               aluResult := 0, writeData := 0, writeRegIdx := 0 }
    memWb := { wb := { regWrite := false, dataSrcToReg := false }, readData := 0, aluResult := 0, writeRegIdx := 0 }
    imem := []
    dm := []
    cycle := 0
    dmErrorSeen := false }

end Sys2Proof.Machine
end

