-- ==== Sys2Proof/Machine/Operands.lean ====
section
/-! DEFINITION. Every operand form: the indices, immediate and jump field the ID stage extracts from a word, and the
instruction-level control decoder. -/

namespace Sys2Proof.Machine

/-- The register a register number names: its low two bits (10_state.md R17, 30_encoding.md R58, D3, log 5). -/
def regIdx (n : Nat) : BitVec 2 := BitVec.ofNat 2 n

/-! ### Fields the ID stage takes from every word, whatever its format (30_encoding.md R58, R59; 42_pipeline.md R99) -/

/-- rs_idx = instr[22:21]. -/
def rsIdxOf (w : Word) : BitVec 2 := w.extractLsb' 21 2
/-- rt_idx = instr[17:16]. -/
def rtIdxOf (w : Word) : BitVec 2 := w.extractLsb' 16 2
/-- rd_idx = instr[12:11]. -/
def rdIdxOf (w : Word) : BitVec 2 := w.extractLsb' 11 2
/-- A 16-bit immediate, sign-extended (30_encoding.md R59). -/
def sext32 (imm : BitVec 16) : Word := imm.signExtend 32
/-- imm = sext_32(instr[15:0]). -/
def immOf (w : Word) : Word := sext32 (imm16Field w)

/-! ### Targets -/

/-- branch_target = pc_plus4 + (imm << 2) (30_encoding.md R60, 42_pipeline.md R102). -/
def branchTarget (pcPlus4 imm : Word) : Word := pcPlus4 + (imm <<< 2)

/-- jump_target = {pc_plus4[31:28], addr26, 00} (30_encoding.md R61, D6, PRESUMED, log 6). -/
def jumpTarget (pcPlus4 : Word) (addr26 : BitVec 26) : Word := pcPlus4.extractLsb' 28 4 ++ addr26 ++ 0#2

/-- The one addressing mode: base plus signed displacement (44_memory_instructions.md R121). -/
def effectiveAddress (base : Word) (imm : BitVec 16) : Word := base + sext32 imm

/-! ### The control decoder -/

/-- The bundle of each instruction (41_decoder.md R85, R86, R87). -/
def ctlOf : Instr → Ctl
  | .add .. => ctlAdd
  | .sub .. => ctlSub
  | .and .. => ctlAnd
  | .or .. => ctlOr
  | .slt .. => ctlSlt
  | .addi .. => ctlAddi
  | .lw .. => ctlLw
  | .sw .. => ctlSw
  | .beq .. => ctlBeq
  | .j .. => ctlJ
  | .nop => ctlNop

/-- The bundle of a word with no row: DECODE_ILLEGAL (41_decoder.md R88, log 7). -/
def ctlWithoutRow (w : Word) : Ctl := bundleCtl (Config.decodeIllegal w)

/-- `decode(instr) -> Ctl`, the hardware's combinational decoder (41_decoder.md R84). -/
def decodeCtl (w : Word) : Ctl :=
  match decode w with
  | .ok i => ctlOf i
  | .error _ => ctlWithoutRow w

end Sys2Proof.Machine
end

