-- ==== Sys2Proof/Machine/Ops.lean ====
section
/-! DEFINITION. The named operations over memory and registers, the five stages, the hazard unit, and one clock edge.
The hardware takes no exception and returns from none (60_exceptions.md R128, R133, R134), so there is no entry operation:
the exception vector is only the fourth input of `pcMux`. -/

namespace Sys2Proof.Machine

/-! ### Memories -/

/-- What an unlisted address reads as: 0. The spec's defaults are DM_INIT = 0 (D12, log 13) and the NOP word in
instruction words past the program (D13, log 14). -/
def unlisted {w : Nat} : BitVec w := 0

/-- The content of address `a`. -/
def sparseGet {w : Nat} : Sparse w → Nat → BitVec w
  | [], _ => unlisted
  | (k, x) :: rest, a => if k = a then x else sparseGet rest a

/-- An entry for `a`, unless `v` is what an unlisted address reads as. -/
def sparseCons {w : Nat} (a : Nat) (v : BitVec w) (rest : Sparse w) : Sparse w :=
  if v = unlisted then rest else (a, v) :: rest

/-- Writes `v` at address `a`, keeping the canonical form. -/
def sparseSet {w : Nat} : Sparse w → Nat → BitVec w → Sparse w
  | [], a, v => sparseCons a v []
  | (k, x) :: rest, a, v =>
    if a < k then sparseCons a v ((k, x) :: rest)
    else if a = k then sparseCons a v rest
    else (k, x) :: sparseSet rest a v

/-- Canonical form from address `lo` up to, not including, `hi`: addresses strictly rising and in range, no content equal
to what an unlisted address reads as. -/
def sparseWf {w : Nat} (hi : Nat) : Nat → Sparse w → Bool
  | _, [] => true
  | lo, (k, x) :: rest => decide (lo ≤ k) && decide (k < hi) && decide (x ≠ unlisted) && sparseWf hi (k + 1) rest

/-- The data memory is in canonical form and lists only the 4096 bytes that exist (20_memory.md R37). -/
def Memory.wf (m : Memory) : Bool := sparseWf Config.dmBytes 0 m

/-- The instruction memory is in canonical form and lists only the 256 words that exist (20_memory.md R37). -/
def imemWf (m : Imem) : Bool := sparseWf Config.imemWords 0 m

/-- DM[a], one byte of data memory. -/
def dmByte (m : Memory) (a : Nat) : Byte := sparseGet m a

/-- The error wire of a data access: misaligned or out of bounds (20_memory.md R38, R44, R45). -/
def dmError (addr : Word) : Bool := decide (addr.extractLsb' 0 2 ≠ 0#2) || decide (Config.dmBytes ≤ addr.toNat)

/-- The big-endian word at byte address `a` (20_memory.md R43). -/
def dmWord (m : Memory) (a : Nat) : Word := dmByte m a ++ dmByte m (a + 1) ++ dmByte m (a + 2) ++ dmByte m (a + 3)

/-- `MemRead(addr, 4) -> (word, error)` (20_memory.md R38). -/
def memRead (m : Memory) (addr : Word) : Word × Bool :=
  if dmError addr then (0#32, true) else (dmWord m addr.toNat, false)

/-- Byte lane `i` of a word: v[31-8i : 24-8i], lane 0 the most significant (20_memory.md R40, log 16). -/
def laneByte (v : Word) (i : Nat) : Byte := v.extractLsb' (24 - 8 * i) 8

/-- Writes lane `i` when its enable be[i] is 1; be[0] is the mask's most significant bit (20_memory.md R40, log 16). -/
def writeLane (a : Nat) (v : Word) (be : BitVec 4) (m : Memory) (i : Nat) : Memory :=
  if be.getMsbD i then sparseSet m (a + i) (laneByte v i) else m

/-- The four lanes of a masked write at byte address `a`. -/
def writeLanes (m : Memory) (a : Nat) (v : Word) (be : BitVec 4) : Memory := [0, 1, 2, 3].foldl (writeLane a v be) m

/-- `MemWrite(addr, 4, v, be)` with write enable `we` and clock `clk`: the memory after it and the error output
(20_memory.md R40). -/
def memWrite (m : Memory) (we clk : Bool) (addr v : Word) (be : BitVec 4) : Memory × Bool :=
  (if gateAnd we clk && !dmError addr then writeLanes m addr.toNat v be else m, dmError addr)

/-- The byte enables SW drives: all four (20_memory.md R41, D15, log 16). -/
def storeEnables : BitVec 4 := 0b1111#4

/-- `IMemRead(i)` for a word index in range (20_memory.md R47). -/
def imemRead (m : Imem) (i : Nat) : Word := sparseGet m i

/-- The host's write of word index `i` before the first tick; an index past the end is dropped (10_state.md R32). -/
def imemWrite (m : Imem) (i : Nat) (v : Word) : Imem := if i < Config.imemWords then sparseSet m i v else m

/-! ### Registers -/

/-- x[i] in a register file (00_scope.md R10). -/
def regRead (r : Regs) (i : BitVec 2) : Word := r.get i.toFin

/-- x[i] in a state. No register is hardwired (10_state.md R15). -/
def State.reg (s : State) (i : BitVec 2) : Word := regRead s.regs i

/-! ### WB stage (42_pipeline.md R108) -/

/-- wdata: the ALU result or the memory data. -/
def wbData (W : MemWb) : Word := select W.aluResult W.readData W.wb.dataSrcToReg

/-- load_k: the one-hot write enable of register `k`. -/
def loadEnable (W : MemWb) (k : BitVec 2) : Bool := gateAnd W.wb.regWrite (W.writeRegIdx == k)

/-- What register `k` takes at the edge. -/
def wbReg (W : MemWb) (r : Regs) (k : BitVec 2) : Word := select (regRead r k) (wbData W) (loadEnable W k)

/-- All four registers step every cycle. -/
def wbRegs (W : MemWb) (r : Regs) : Regs := #v[wbReg W r 0, wbReg W r 1, wbReg W r 2, wbReg W r 3]

/-! ### MEM stage (42_pipeline.md R107) -/

/-- What MEM/WB takes: the read is unconditional and samples the memory before this edge's write (20_memory.md R39, R42). -/
def memWbNext (m : Memory) (M : ExMem) : MemWb :=
  { wb := M.wb, readData := (memRead m M.aluResult).1, aluResult := M.aluResult, writeRegIdx := M.writeRegIdx }

/-- The data memory after the edge; at the edge the clock is 1 (20_memory.md R41). -/
def dmNext (m : Memory) (M : ExMem) : Memory := (memWrite m M.mem.memWrite true M.aluResult M.writeData storeEnables).1

/-- Whether a load or store in MEM meets a data-memory error this cycle (60_exceptions.md R129, log 17). -/
def dmErrorNow (m : Memory) (M : ExMem) : Bool := (M.mem.memRead || M.mem.memWrite) && (memRead m M.aluResult).2

/-! ### EX stage (42_pipeline.md R101 to R106) -/

/-- ex_flush, which nothing drives: tied to 0 (42_pipeline.md R105, D7, log 9). -/
def exFlush : Bool := false

/-- cin_base of every ALU call of the core (40_circuit_primitives.md R77, D17, log 18). -/
def cinBase : Bool := false

/-- opb: rt data or the immediate (42_pipeline.md R101). -/
def exOperandB (E : IdEx) : Word := select E.rtData E.imm E.ctl.aluSrc

/-- alu_res (42_pipeline.md R101). -/
def exAluResult (E : IdEx) : Word := (compute E.rsData (exOperandB E) cinBase E.ctl.aluOp).1

/-- is_zero of the dedicated SUB of the two register operands (42_pipeline.md R102). -/
def exIsZero (E : IdEx) : Bool := isZero (compute E.rsData E.rtData cinBase .sub).1

/-- b0, the branch select (42_pipeline.md R102). -/
def branchSelect (flush : Bool) (E : IdEx) : Bool := gateAnd (gateNot flush) (gateAnd E.ctl.branch (exIsZero E))

/-- b1, the jump select (42_pipeline.md R103, D6, log 6). -/
def jumpSelect (flush : Bool) (E : IdEx) : Bool := gateAnd (gateNot flush) E.ctl.jump

/-- wreg: the rt or rd index (42_pipeline.md R104). -/
def exDest (E : IdEx) : BitVec 2 := select E.rtIdx E.rdIdx E.ctl.regDst

/-- EX/MEM with every field 0. -/
def ExMem.zero : ExMem :=
  { mem := { memRead := false, memWrite := false }, wb := { regWrite := false, dataSrcToReg := false },
    aluResult := 0, writeData := 0, writeRegIdx := 0 }

/-- What EX/MEM takes; it has no write enable (42_pipeline.md R106, D18, log 9). -/
def exMemNext (flush : Bool) (E : IdEx) : ExMem :=
  select
    { mem := { memRead := E.ctl.memRead, memWrite := E.ctl.memWrite },
      wb := { regWrite := E.ctl.regWrite, dataSrcToReg := E.ctl.dataSrcToReg },
      aluResult := exAluResult E, writeData := E.rtData, writeRegIdx := exDest E }
    ExMem.zero flush

/-! ### Hazard unit (42_pipeline.md R109) -/

/-- The hazard unit's outputs. -/
structure Hazard where
  ifIdFlush : Bool
  idExFlush : Bool
  pcWrite : Bool
  ifIdWrite : Bool
  idExWrite : Bool
  deriving DecidableEq, Repr

/-- branch_taken: the 2-bit code equals the branch pattern. -/
def branchTaken (b0 b1 : Bool) : Bool := gateAnd b0 (gateNot b1)

/-- The hazard unit is purely combinational, and every write enable is tied to 1. -/
def hazard (b0 b1 : Bool) : Hazard :=
  { ifIdFlush := branchTaken b0 b1, idExFlush := branchTaken b0 b1, pcWrite := true, ifIdWrite := true, idExWrite := true }

/-! ### IF stage and PC (42_pipeline.md R94 to R97) -/

/-- floor(PC / 4): PC bits [1:0] do not affect the fetch (20_memory.md R47). -/
def fetchIndex (pc : Word) : Nat := pc.toNat / 4

/-- pc4_f = pc + 4, by the ALU (42_pipeline.md R94). -/
def pcPlus4 (pc : Word) : Word := (compute pc 4#32 cinBase .add).1

/-- The cascaded PC mux (42_pipeline.md R95, D8, log 10). -/
def pcMux (sequential branch jump exception : Word) (b0 b1 : Bool) : Word :=
  select (select sequential branch b0) (select jump exception b0) b1

/-- What the PC takes: held when pc_write is 0 (42_pipeline.md R97). -/
def pcCommit (write : Bool) (held next : Word) : Word := select held next write

/-- What IF/ID takes: a flush wins over a hold, and zeroes the instruction only (42_pipeline.md R98, 90_conflicts.md C1). -/
def ifIdCommit (flush write : Bool) (held fetched : IfId) : IfId :=
  if flush then { instr := 0#32, pcPlus4 := fetched.pcPlus4 } else if !write then held else fetched

/-! ### ID stage (42_pipeline.md R99, R100) -/

/-- What ID reads and extracts: the bundle, the two committed registers, and the fields of the word (42_pipeline.md R99). -/
def idStage (ctl : Ctl) (w : Word) (r : Regs) (pc4 : Word) : IdEx :=
  { ctl := ctl, rsData := regRead r (rsIdxOf w), rtData := regRead r (rtIdxOf w), rsIdx := rsIdxOf w, rtIdx := rtIdxOf w,
    rdIdx := rdIdxOf w, imm := immOf w, pcPlus4 := pc4, addr26 := addr26Field w }

/-- The bubble a flush loads into ID/EX: every field 0, pc_plus4 passed through by the configuration point
(42_pipeline.md R100, D20, log 20). -/
def idExBubble (pc4 : Word) : IdEx := { IdEx.zero with pcPlus4 := select 0#32 pc4 Config.idExFlushKeepsPc4 }

/-- What ID/EX takes: a flush wins over a hold (42_pipeline.md R100). -/
def idExCommit (flush write : Bool) (held decoded : IdEx) : IdEx :=
  if flush then idExBubble decoded.pcPlus4 else if !write then held else decoded

/-! ### The cycle (42_pipeline.md R111) -/

/-- b0 of the cycle. -/
def State.b0 (s : State) : Bool := branchSelect exFlush s.idEx
/-- b1 of the cycle. -/
def State.b1 (s : State) : Bool := jumpSelect exFlush s.idEx
/-- The hazard unit's outputs of the cycle. -/
def State.hazard (s : State) : Hazard := Machine.hazard s.b0 s.b1
/-- The cycle flushes IF/ID and ID/EX: a taken branch is in EX. -/
def State.flush (s : State) : Bool := branchTaken s.b0 s.b1
/-- The PC mux's output of the cycle. -/
def State.nextPc (s : State) : Word :=
  pcMux (pcPlus4 s.pc) (branchTarget s.idEx.pcPlus4 s.idEx.imm) (jumpTarget s.idEx.pcPlus4 s.idEx.addr26) Config.excVector
    s.b0 s.b1
/-- What the IF stage offers IF/ID. -/
def State.fetched (s : State) : IfId := { instr := imemRead s.imem (fetchIndex s.pc), pcPlus4 := pcPlus4 s.pc }

/-- The cycle would latch a word fetched past the instruction memory (20_memory.md R47, 42_pipeline.md R111). -/
def State.fetchFails (s : State) : Bool := !s.flush && decide (Config.imemWords ≤ fetchIndex s.pc)
/-- Both PC-select bits are 1 (42_pipeline.md R96). -/
def State.bothSelects (s : State) : Bool := gateAnd s.b0 s.b1

/-- The model-only outcome of the cycle, if any; all that apply are recorded (60_exceptions.md R130, log 23). -/
def edgeFault (s : State) : Option Fault :=
  if s.bothSelects then (if s.fetchFails then some .pcSrcExceptionAndFetchOutOfRange else some .pcSrcException)
  else if s.fetchFails then some .fetchOutOfRange
  else none

/-- The clock edge: every register takes its new value at once, each computed from the committed state (42_pipeline.md
R111). `ctl` and `w` are the bundle and the word of the instruction in ID. -/
def commit (ctl : Ctl) (w : Word) (s : State) : State :=
  { regs := wbRegs s.memWb s.regs
    pc := pcCommit s.hazard.pcWrite s.pc s.nextPc
    ifId := ifIdCommit s.hazard.ifIdFlush s.hazard.ifIdWrite s.ifId s.fetched
    idEx := idExCommit s.hazard.idExFlush s.hazard.idExWrite s.idEx (idStage ctl w s.regs s.ifId.pcPlus4)
    exMem := exMemNext exFlush s.idEx
    memWb := memWbNext s.dm s.exMem
    imem := s.imem
    dm := dmNext s.dm s.exMem
    cycle := s.cycle + 1
    dmErrorSeen := s.dmErrorSeen || dmErrorNow s.dm s.exMem }

/-- One tick with the bundle and the word of the instruction in ID (42_pipeline.md R111). -/
def tick (ctl : Ctl) (w : Word) (s : State) : Host.Outcome State Fault Refusal :=
  match edgeFault s with
  | some f => .fault f
  | none => .next (commit ctl w s)

/-- The tick in which instruction `i`, with bundle `ctl`, is in ID: the shared form of every meaning (43_alu_instructions.md
R113; log 2). The older instructions in EX, MEM and WB do their part of the same tick. -/
def issue (ctl : Ctl) (i : Instr) (s : State) : Host.Outcome State Fault Refusal := tick ctl (encode i) s

/-- The tick in which a word with no opcode-table row is in ID: it runs with the bundle DECODE_ILLEGAL gives it
(41_decoder.md R88, log 7). -/
def issueWithoutRow (w : Word) (s : State) : Host.Outcome State Fault Refusal := tick (ctlWithoutRow w) w s

/-- The fetch of word `w` at the PC, alone: the word stands in instruction memory there, IF/ID holds it with its pc + 4,
and the PC has moved on (42_pipeline.md R94, R98; log 3). -/
def placeFetched (w : Word) (s : State) : State :=
  { s with imem := imemWrite s.imem (fetchIndex s.pc) w, pc := pcPlus4 s.pc, ifId := { instr := w, pcPlus4 := pcPlus4 s.pc } }

end Sys2Proof.Machine
end

