-- ==== Sys2Proof/Machine/Arithmetic.lean ====
section
/-! DEFINITION. The arithmetic and logic instructions (43_alu_instructions.md). A meaning is the tick in which its
instruction is in ID: it reads x_ID, latches the instruction's bundle into ID/EX, and the pipeline's EX, MEM and WB stages
carry out that bundle in the three ticks after it (R113; log 2). `Laws/Retire.lean` says what those four ticks do. -/

namespace Sys2Proof.Machine

/-- ADD: x[rd] <- x_ID[rs] + x_ID[rt] at write-back (R114). -/
def execAdd (rd rs rt : Nat) (shamt : BitVec 5) (s : State) : Host.Outcome State Fault Refusal :=
  issue ctlAdd (.add rd rs rt shamt) s

/-- SUB: x[rd] <- x_ID[rs] - x_ID[rt] at write-back (R115). -/
def execSub (rd rs rt : Nat) (shamt : BitVec 5) (s : State) : Host.Outcome State Fault Refusal :=
  issue ctlSub (.sub rd rs rt shamt) s

/-- AND: x[rd] <- x_ID[rs] & x_ID[rt] at write-back (R116). -/
def execAnd (rd rs rt : Nat) (shamt : BitVec 5) (s : State) : Host.Outcome State Fault Refusal :=
  issue ctlAnd (.and rd rs rt shamt) s

/-- OR: x[rd] <- x_ID[rs] | x_ID[rt] at write-back (R117). -/
def execOr (rd rs rt : Nat) (shamt : BitVec 5) (s : State) : Host.Outcome State Fault Refusal :=
  issue ctlOr (.or rd rs rt shamt) s

/-- SLT: x[rd] <- (signed x_ID[rs] < signed x_ID[rt]) at write-back (R118). -/
def execSlt (rd rs rt : Nat) (shamt : BitVec 5) (s : State) : Host.Outcome State Fault Refusal :=
  issue ctlSlt (.slt rd rs rt shamt) s

/-- ADDI: x[rt] <- x_ID[rs] + sext(imm16) at write-back (R119). -/
def execAddi (rt rs : Nat) (imm : BitVec 16) (s : State) : Host.Outcome State Fault Refusal :=
  issue ctlAddi (.addi rt rs imm) s

end Sys2Proof.Machine
end

