-- ==== Sys2Proof/Machine/ControlTransfer.lean ====
section
/-! DEFINITION. BEQ, J and NOP (45_control_instructions.md). Each is the tick in which the instruction is in ID; a transfer
of control happens one tick later, in EX (R125, R126; log 2). -/

namespace Sys2Proof.Machine

/-- BEQ: pc <- pc_plus4 + (sext(off) << 2) in EX if x_ID[rs] = x_ID[rt], squashing the two younger instructions (R125). -/
def execBeq (rs rt : Nat) (off : BitVec 16) (s : State) : Host.Outcome State Fault Refusal :=
  issue ctlBeq (.beq rs rt off) s

/-- J: pc <- the jump target in EX, with no squash: two delay slots (R126; log 6). -/
def execJ (addr26 : BitVec 26) (s : State) : Host.Outcome State Fault Refusal := issue ctlJ (.j addr26) s

/-- NOP: the all-zero bundle (R127). -/
def execNop (s : State) : Host.Outcome State Fault Refusal := issue ctlNop .nop s

end Sys2Proof.Machine
end

