-- ==== Sys2Proof/Machine/LoadStore.lean ====
section
/-! DEFINITION. The load and the store (44_memory_instructions.md). Each is the tick in which the instruction is in ID; the
memory access happens two ticks later, in MEM (R121; log 2). -/

namespace Sys2Proof.Machine

/-- LW: x[rt] <- the word at x_ID[rs] + sext(imm16), 0 on a data-memory error (R122). -/
def execLw (rt : Nat) (imm : BitVec 16) (rs : Nat) (s : State) : Host.Outcome State Fault Refusal :=
  issue ctlLw (.lw rt imm rs) s

/-- SW: the word at x_ID[rs] + sext(imm16) <- x_ID[rt], no byte on a data-memory error (R123). -/
def execSw (rt : Nat) (imm : BitVec 16) (rs : Nat) (s : State) : Host.Outcome State Fault Refusal :=
  issue ctlSw (.sw rt imm rs) s

end Sys2Proof.Machine
end

