-- ==== Sys2Proof/Machine/Dispatch.lean ====
section
/-! DEFINITION. One arm per instruction. -/

namespace Sys2Proof.Machine

def exec (i : Instr) (s : State) : Host.Outcome State Fault Refusal :=
  match i with
  | .add rd rs rt shamt => Sys2Proof.Machine.execAdd rd rs rt shamt s
  | .sub rd rs rt shamt => Sys2Proof.Machine.execSub rd rs rt shamt s
  | .and rd rs rt shamt => Sys2Proof.Machine.execAnd rd rs rt shamt s
  | .or rd rs rt shamt => Sys2Proof.Machine.execOr rd rs rt shamt s
  | .slt rd rs rt shamt => Sys2Proof.Machine.execSlt rd rs rt shamt s
  | .addi rt rs imm => Sys2Proof.Machine.execAddi rt rs imm s
  | .lw rt imm rs => Sys2Proof.Machine.execLw rt imm rs s
  | .sw rt imm rs => Sys2Proof.Machine.execSw rt imm rs s
  | .beq rs rt off => Sys2Proof.Machine.execBeq rs rt off s
  | .j addr26 => Sys2Proof.Machine.execJ addr26 s
  | .nop => Sys2Proof.Machine.execNop s

end Sys2Proof.Machine
end

