-- ==== Sys2Proof/Machine/Step.lean ====
section
/-! DEFINITION. One tick of the core (60_exceptions.md R143, 42_pipeline.md R111). The word in IF/ID is decoded "once, at
ID/EX latch time" (41_decoder.md R84): a word with a row runs its instruction's meaning, any other word runs with the bundle
DECODE_ILLEGAL gives it. -/

namespace Sys2Proof.Machine

/-- One tick. -/
def step (s : State) : Host.Outcome State Fault Refusal :=
  match decode s.ifId.instr with
  | .ok i => exec i s
  | .error _ => issueWithoutRow s.ifId.instr s

/-- `s` just after the fetch of the word: the next step decodes and runs exactly it (log 3). -/
def State.withFetchWord (s : State) (nbits w : Nat) : State := placeFetched (tableWord nbits w) s

end Sys2Proof.Machine
end

