-- ==== Sys2Proof/Machine/Cell.lean ====
section
/-! DEFINITION. The edge-triggered cell and the register of cells (40_circuit_primitives.md R70 to R74). The cycle-level
machine keeps only their committed output Q (10_state.md R35, log 1). -/

namespace Sys2Proof.Machine

/-- One cell: master latch m, slave latch q (the output Q), prev_clock p (40_circuit_primitives.md R70). All 0 after reset. -/
structure Cell where
  m : Bool
  q : Bool
  p : Bool
  deriving DecidableEq, Repr

/-- The state after `step(clk, d)`; the call returns its `q`. The master follows every clk=0 call (R70; log 28). -/
def cellStep (c : Cell) (clk d : Bool) : Cell :=
  if clk then { c with q := select c.q c.m (gateNot c.p), p := true } else { c with m := d, p := false }

/-- A register: cells sharing one load-enable and one clock, cell `i` holding bit `i` (40_circuit_primitives.md R73). -/
abbrev CellRegister (n : Nat) := Vector Cell n

/-- The register's output bus. -/
def registerQ {n : Nat} (r : CellRegister n) : BitVec n := BitVec.ofFnLE fun i => (r.get i).q

/-- `Register.step(load, d_in, clk)`: with load = 0 each cell's own Q is fed back (40_circuit_primitives.md R73). -/
def registerStep {n : Nat} (r : CellRegister n) (load : Bool) (d : BitVec n) (clk : Bool) : CellRegister n :=
  Vector.ofFn fun i => cellStep (r.get i) clk (select (r.get i).q (d.getLsbD i) load)

/-- One cycle under the calling protocol: clk=0 with the first inputs, then clk=1 with the second (R75). -/
def registerCycle {n : Nat} (r : CellRegister n) (load0 : Bool) (d0 : BitVec n) (load1 : Bool) (d1 : BitVec n) : CellRegister n :=
  registerStep (registerStep r load0 d0 false) load1 d1 true

end Sys2Proof.Machine
end

