-- ==== Sys2Proof/Machine/Inspect.lean ====
section
/-! DEFINITION. The host's read-only accessors (60_exceptions.md R144, D23). A field narrower than 32 bits reads as its
zero-extended word (10_state.md R30, D19, log 19). -/

namespace Sys2Proof.Machine

/-- What the host can read as a word. The control bundle is a record, so each of its fields is read by its own name. -/
inductive Probe
  | gpr (i : BitVec 2) | pc
  | ifIdInstr | ifIdPcPlus4
  | idExRegDst | idExAluSrc | idExDataSrcToReg | idExRegWrite | idExMemRead | idExMemWrite | idExBranch | idExJump | idExAluOp
  | idExRsData | idExRtData | idExRsIdx | idExRtIdx | idExRdIdx | idExImm | idExPcPlus4 | idExAddr26
  | exMemMemRead | exMemMemWrite | exMemRegWrite | exMemDataSrcToReg | exMemAluResult | exMemWriteData | exMemWriteRegIdx
  | memWbRegWrite | memWbDataSrcToReg | memWbReadData | memWbAluResult | memWbWriteRegIdx
  deriving DecidableEq, Repr

/-- A control bit as a word. -/
def bitWord (b : Bool) : Word := (BitVec.ofBool b).zeroExtend 32

/-- The value the host reads. -/
def inspect (s : State) : Probe → Word
  | .gpr i => s.reg i
  | .pc => s.pc
  | .ifIdInstr => s.ifId.instr
  | .ifIdPcPlus4 => s.ifId.pcPlus4
  | .idExRegDst => bitWord s.idEx.ctl.regDst
  | .idExAluSrc => bitWord s.idEx.ctl.aluSrc
  | .idExDataSrcToReg => bitWord s.idEx.ctl.dataSrcToReg
  | .idExRegWrite => bitWord s.idEx.ctl.regWrite
  | .idExMemRead => bitWord s.idEx.ctl.memRead
  | .idExMemWrite => bitWord s.idEx.ctl.memWrite
  | .idExBranch => bitWord s.idEx.ctl.branch
  | .idExJump => bitWord s.idEx.ctl.jump
  | .idExAluOp => s.idEx.ctl.aluOp.code.zeroExtend 32
  | .idExRsData => s.idEx.rsData
  | .idExRtData => s.idEx.rtData
  | .idExRsIdx => s.idEx.rsIdx.zeroExtend 32
  | .idExRtIdx => s.idEx.rtIdx.zeroExtend 32
  | .idExRdIdx => s.idEx.rdIdx.zeroExtend 32
  | .idExImm => s.idEx.imm
  | .idExPcPlus4 => s.idEx.pcPlus4
  | .idExAddr26 => s.idEx.addr26.zeroExtend 32
  | .exMemMemRead => bitWord s.exMem.mem.memRead
  | .exMemMemWrite => bitWord s.exMem.mem.memWrite
  | .exMemRegWrite => bitWord s.exMem.wb.regWrite
  | .exMemDataSrcToReg => bitWord s.exMem.wb.dataSrcToReg
  | .exMemAluResult => s.exMem.aluResult
  | .exMemWriteData => s.exMem.writeData
  | .exMemWriteRegIdx => s.exMem.writeRegIdx.zeroExtend 32
  | .memWbRegWrite => bitWord s.memWb.wb.regWrite
  | .memWbDataSrcToReg => bitWord s.memWb.wb.dataSrcToReg
  | .memWbReadData => s.memWb.readData
  | .memWbAluResult => s.memWb.aluResult
  | .memWbWriteRegIdx => s.memWb.writeRegIdx.zeroExtend 32

/-- The data memory's byte at `a`, read by the host. -/
def inspectByte (s : State) (a : Nat) : Byte := dmByte s.dm a

/-- The cycle counter, read by the host. -/
def inspectCycle (s : State) : Nat := s.cycle

end Sys2Proof.Machine
end

