-- ==== Sys2Proof/Machine/Launch.lean ====
section
/-! DEFINITION. What the host does before the first tick (60_exceptions.md R142, 70_reset_and_hazards.md R148). -/

namespace Sys2Proof.Machine

/-- The program written from word index `i` on; words past the end are dropped (10_state.md R32). -/
def loadProgram : Nat → List Word → Imem → Imem
  | _, [], m => m
  | i, w :: ws, m => loadProgram (i + 1) ws (imemWrite m i w)

/-- DM_INIT, written from byte address `a` on; only the bytes of the array exist (10_state.md R33, D12). -/
def loadData : Nat → List Byte → Memory → Memory
  | _, [], m => m
  | a, b :: bs, m => loadData (a + 1) bs (if a < Config.dmBytes then sparseSet m a b else m)

/-- The launch state: reset, with the program, GPR_INIT and DM_INIT the host supplies (70_reset_and_hazards.md R146). -/
def launch (program : List Word) (gprInit : Regs) (dmInit : List Byte) : State :=
  { State.reset with regs := gprInit, imem := loadProgram 0 program [], dm := loadData 0 dmInit [] }

end Sys2Proof.Machine
end

