-- ==== Sys2Proof/Machine/Phase.lean ====
section
/-! DEFINITION. The two-phase core below the cycle-level machine: every register bit with its master latch, slave latch and
prev_clock (10_state.md R35), advanced by a clk=0 phase and a clk=1 phase (40_circuit_primitives.md R75). The cycle-level
machine is what `committed` shows of it after both phases (R76, log 1). -/

namespace Sys2Proof.Machine

/-- The cells of one pipeline register, PC or general register, which share a clock: all masters, all slaves, and their
common prev_clock (10_state.md R35). -/
structure Latch (α : Type) where
  m : α
  q : α
  p : Bool
  deriving DecidableEq, Repr

/-- Every cell of the register steps with the same clock (40_circuit_primitives.md R70, R73). -/
def latchStep {α : Type} (l : Latch α) (clk : Bool) (d : α) : Latch α :=
  if clk then { l with q := select l.q l.m (gateNot l.p), p := true } else { l with m := d, p := false }

/-- The core with its cells. The memories, the cycle counter and the model's mark are not made of cells (10_state.md R35). -/
structure PhaseCore where
  regs : Vector (Latch Word) 4
  pc : Latch Word
  ifId : Latch IfId
  idEx : Latch IdEx
  exMem : Latch ExMem
  memWb : Latch MemWb
  imem : Imem
  dm : Memory
  cycle : Nat
  dmErrorSeen : Bool
  deriving DecidableEq, Repr

/-- The committed outputs Q: all a combinational path ever reads (40_circuit_primitives.md R75). -/
def committed (P : PhaseCore) : State :=
  { regs := P.regs.map Latch.q, pc := P.pc.q, ifId := P.ifId.q, idEx := P.idEx.q, exMem := P.exMem.q, memWb := P.memWb.q,
    imem := P.imem, dm := P.dm, cycle := P.cycle, dmErrorSeen := P.dmErrorSeen }

/-- Every register steps with clock `clk` and the inputs it would take from the committed state of the cycle. -/
def latchAll (clk : Bool) (ctl : Ctl) (w : Word) (P : PhaseCore) : PhaseCore :=
  let next := commit ctl w (committed P)
  { P with
    regs := Vector.zipWith (fun l d => latchStep l clk d) P.regs next.regs
    pc := latchStep P.pc clk next.pc
    ifId := latchStep P.ifId clk next.ifId
    idEx := latchStep P.idEx clk next.idEx
    exMem := latchStep P.exMem clk next.exMem
    memWb := latchStep P.memWb clk next.memWb }

/-- The clk=0 phase: every master samples; nothing is committed and memory is not written (R75, 20_memory.md R40). -/
def settlePhase (ctl : Ctl) (w : Word) (P : PhaseCore) : PhaseCore := latchAll false ctl w P

/-- The clk=1 phase: every register commits at once, and the store in MEM, if any, is written from the committed EX/MEM
values of the cycle (R75, 20_memory.md R41). DESIGN CHOICE (log 32): the cycle counter advances and the mark is set in this
phase; the spec gives both to the tick as a whole (10_state.md R34, 60_exceptions.md R143, R129). What a clk=1 call repeated
outside a tick does to the counter, the mark and the data memory is the model's choice too. -/
def commitPhase (ctl : Ctl) (w : Word) (P : PhaseCore) : PhaseCore :=
  { latchAll true ctl w P with
    dm := dmNext P.dm P.exMem.q
    cycle := P.cycle + 1
    dmErrorSeen := P.dmErrorSeen || dmErrorNow P.dm P.exMem.q }

/-- A latch whose three bits are all 0 after reset (10_state.md R35). -/
def latchAt {α : Type} (v : α) : Latch α := { m := v, q := v, p := false }

/-- The two-phase core in which every cell's master and slave hold `s` and no clock edge has been seen; of the reset state
this is every cell at (0, 0, 0) (10_state.md R35). -/
def phaseOf (s : State) : PhaseCore :=
  { regs := s.regs.map latchAt, pc := latchAt s.pc, ifId := latchAt s.ifId, idEx := latchAt s.idEx, exMem := latchAt s.exMem,
    memWb := latchAt s.memWb, imem := s.imem, dm := s.dm, cycle := s.cycle, dmErrorSeen := s.dmErrorSeen }

end Sys2Proof.Machine
end

