-- ==== Sys2Proof/Safety.lean ====
section
/-! DEFINITION. The terms claims are stated in: the invariant, the life of one instruction through the pipeline, the
conditions under which a run of ticks answers a next state, what an instruction reads and writes, and equality up to
don't-cares. -/

namespace Sys2Proof

open Machine

/-! ### What an instruction reads and writes -/

/-- The rs operand's register number, for the instructions that have one (30_encoding.md R65). -/
def Instr.rsOperand : Instr → Option Nat
  | .add _ rs _ _ | .sub _ rs _ _ | .and _ rs _ _ | .or _ rs _ _ | .slt _ rs _ _ => some rs
  | .addi _ rs _ | .lw _ _ rs | .sw _ _ rs | .beq rs _ _ => some rs
  | .j _ => none
  | .nop => none

/-- The rt operand's register number, where the instruction reads it. -/
def Instr.rtOperand : Instr → Option Nat
  | .add _ _ rt _ | .sub _ _ rt _ | .and _ _ rt _ | .or _ _ rt _ | .slt _ _ rt _ => some rt
  | .sw rt _ _ | .beq _ rt _ => some rt
  | .addi .. | .lw .. => none
  | .j _ => none
  | .nop => none

/-- The 16-bit immediate, for the I-type instructions. -/
def Instr.immOperand : Instr → Option (BitVec 16)
  | .addi _ _ imm | .lw _ imm _ | .sw _ imm _ | .beq _ _ imm => some imm
  | .add .. | .sub .. | .and .. | .or .. | .slt .. => none
  | .j _ => none
  | .nop => none

/-- The register an instruction writes at WB, if any (10_state.md R16). -/
def Instr.destReg : Instr → Option (BitVec 2)
  | .add rd .. | .sub rd .. | .and rd .. | .or rd .. | .slt rd .. => some (regIdx rd)
  | .addi rt .. | .lw rt .. => some (regIdx rt)
  | .sw .. | .beq .. => none
  | .j _ => none
  | .nop => none

/-- The address a load or store accesses, from the registers as they stand when it is in ID (44_memory_instructions.md
R121). -/
def Instr.accessAddress (i : Instr) (s : State) : Option Word :=
  match i with
  | .lw _ imm rs | .sw _ imm rs => some (effectiveAddress (s.reg (regIdx rs)) imm)
  | .add .. | .sub .. | .and .. | .or .. | .slt .. | .addi .. | .beq .. => none
  | .j _ => none
  | .nop => none

/-- Byte `a` is one of the four bytes a store instruction writes (44_memory_instructions.md R123). -/
def Instr.stores (i : Instr) (s : State) (a : Nat) : Bool :=
  match i with
  | .sw _ imm rs =>
    let ea := effectiveAddress (s.reg (regIdx rs)) imm
    !dmError ea && decide (ea.toNat ≤ a) && decide (a < ea.toNat + 4)
  | .add .. | .sub .. | .and .. | .or .. | .slt .. | .addi .. | .lw .. | .beq .. => false
  | .j _ => false
  | .nop => false

end Sys2Proof

namespace Sys2Proof.Machine

/-! ### The invariant -/

/-- A multiple of 4 (10_state.md R21). -/
def aligned (w : Word) : Bool := w.extractLsb' 0 2 == 0#2

/-- What the exclusions of 41_decoder.md R89 leave of a bundle in EX/MEM. -/
def exMemExclusive (M : ExMem) : Bool :=
  !(M.mem.memRead && M.mem.memWrite) && (!M.mem.memRead || (M.wb.regWrite && M.wb.dataSrcToReg)) &&
    (!M.mem.memWrite || !M.wb.regWrite)

/-- Both memories canonical and within their size, every pc a multiple of 4 (10_state.md R21), every bundle in flight
exclusive (41_decoder.md R89). -/
def State.inv (s : State) : Bool :=
  s.dm.wf && imemWf s.imem && aligned s.pc && aligned s.ifId.pcPlus4 && aligned s.idEx.pcPlus4 && s.idEx.ctl.exclusive &&
    exMemExclusive s.exMem

/-- The invariant as a proposition. -/
abbrev State.Inv (s : State) : Prop := s.inv = true

/-- A tick that stops nothing and meets no new data-memory error: the run stays safe. -/
def SafeTick (s : State) : Prop := ∃ t, step s = .next t ∧ t.dmErrorSeen = s.dmErrorSeen

/-! ### The life of an instruction (42_pipeline.md R93) -/

/-- Instruction `i` is in ID in state `s` and is not squashed there; `d`, `e`, `m`, `w` are the states after its ID, EX, MEM
and WB ticks, whatever the neighbouring instructions are. -/
structure Life (i : Instr) (s d e m w : State) : Prop where
  unsquashed : s.flush = false
  decoded : exec i s = .next d
  executed : step d = .next e
  accessed : step e = .next m
  retired : step m = .next w

/-- No transfer of control is in EX, and the next two fetches lie in the instruction memory. -/
structure ClearForTwo (s : State) : Prop where
  noBranch : s.idEx.ctl.branch = false
  noJump : s.idEx.ctl.jump = false
  inRange : fetchIndex s.pc + 1 < Config.imemWords

/-- No transfer of control is in EX or in the word fetched next, and the next four fetches lie in the instruction memory:
enough for four ticks to answer a next state. -/
structure ClearForFour (s : State) : Prop where
  noBranch : s.idEx.ctl.branch = false
  noJump : s.idEx.ctl.jump = false
  inRange : fetchIndex s.pc + 3 < Config.imemWords
  nextNoBranch : (decodeCtl (imemRead s.imem (fetchIndex s.pc))).branch = false
  nextNoJump : (decodeCtl (imemRead s.imem (fetchIndex s.pc))).jump = false

/-! ### Equality up to what no effect reads (41_decoder.md R85, R90; 42_pipeline.md R100) -/

/-- ID/EX contents that have the same effect: a bubble's or a sequential instruction's pc_plus4, and a bundle field no
later stage reads, may differ. -/
structure SameIdEx (E F : IdEx) : Prop where
  regWrite : E.ctl.regWrite = F.ctl.regWrite
  memRead : E.ctl.memRead = F.ctl.memRead
  memWrite : E.ctl.memWrite = F.ctl.memWrite
  branch : E.ctl.branch = F.ctl.branch
  jump : E.ctl.jump = F.ctl.jump
  regDst : E.ctl.regWrite = true → E.ctl.regDst = F.ctl.regDst
  dataSrcToReg : E.ctl.regWrite = true → E.ctl.dataSrcToReg = F.ctl.dataSrcToReg
  aluSrc : E.ctl.regWrite = true ∨ E.ctl.memRead = true ∨ E.ctl.memWrite = true → E.ctl.aluSrc = F.ctl.aluSrc
  aluOp : E.ctl.regWrite = true ∨ E.ctl.memRead = true ∨ E.ctl.memWrite = true → E.ctl.aluOp = F.ctl.aluOp
  pcPlus4 : E.ctl.branch = true ∨ E.ctl.jump = true → E.pcPlus4 = F.pcPlus4
  rsData : E.rsData = F.rsData
  rtData : E.rtData = F.rtData
  rtIdx : E.rtIdx = F.rtIdx
  rdIdx : E.rdIdx = F.rdIdx
  imm : E.imm = F.imm
  addr26 : E.addr26 = F.addr26

/-- EX/MEM contents that have the same effect. -/
structure SameExMem (M N : ExMem) : Prop where
  mem : M.mem = N.mem
  regWrite : M.wb.regWrite = N.wb.regWrite
  dataSrcToReg : M.wb.regWrite = true → M.wb.dataSrcToReg = N.wb.dataSrcToReg
  writeRegIdx : M.wb.regWrite = true → M.writeRegIdx = N.writeRegIdx
  aluResult : M.wb.regWrite = true ∨ M.mem.memRead = true ∨ M.mem.memWrite = true → M.aluResult = N.aluResult
  writeData : M.writeData = N.writeData

/-- MEM/WB contents that have the same effect. -/
structure SameMemWb (W V : MemWb) : Prop where
  regWrite : W.wb.regWrite = V.wb.regWrite
  data : W.wb.regWrite = true → wbData W = wbData V
  writeRegIdx : W.wb.regWrite = true → W.writeRegIdx = V.writeRegIdx

/-- States equal in registers, memories, PC, IF/ID, counter and mark, whose pipeline contents have the same effect. -/
structure SameEffect (s t : State) : Prop where
  regs : s.regs = t.regs
  pc : s.pc = t.pc
  ifId : s.ifId = t.ifId
  idEx : SameIdEx s.idEx t.idEx
  exMem : SameExMem s.exMem t.exMem
  memWb : SameMemWb s.memWb t.memWb
  imem : s.imem = t.imem
  dm : s.dm = t.dm
  cycle : s.cycle = t.cycle
  dmErrorSeen : s.dmErrorSeen = t.dmErrorSeen

end Sys2Proof.Machine
end

