-- ==== Sys2Proof/Certificates/Slice0/Obligations.lean ====
section
/-! DEFINITION. The statements. In a `Life i s d e m w`, instruction `i` is in ID in `s` (cycle c+1 of the spec's rules), in
EX in `d` (c+2), in MEM in `e` (c+3), in WB in `m` (c+4), and retired in `w`; x_ID is `s.reg`, DM_c3 is `e.dm`. The model's
own choices, and the spec's marked decisions, that a statement rests on are named by log entry: for one statement in its
docstring; for many here. A statement over `decode`, `encode`, `ctlOf` or a register number rests on the spec's encoding
(logs 4, 5); one over `exec`, `step` or `Life` on the level and dispatch of the model (logs 1, 2); one over EX/MEM on its
unconditional load, its bundles' split and cin_base = 0 (logs 9, 18, 19); one that gives all of ID/EX (`idStage`) on the
added field addr26 (log 6); one over a store or the mark on logs 16, 17 and 25; one over a fetch out
of range on log 15. -/

open Sys2Proof Sys2Proof.Machine

/-! ### Cells, registers and phases -/

/-- R74: the value committed by a cycle is decided by the clk=0 phase alone; load = 0 keeps Q. -/
def Obligations.RegisterCommitsThePhaseZeroSample : Prop :=
  ∀ (n : Nat) (r : CellRegister n) (load0 load1 : Bool) (d0 d1 : BitVec n),
    registerQ (registerCycle r load0 d0 load1 d1) = if load0 then d0 else registerQ r

/-- R71: a call at the clock level of the call before it changes no output, so a second clk=1 call commits nothing. -/
def Obligations.RegisterHoldsOnARepeatedClockLevel : Prop :=
  (∀ (n : Nat) (r : CellRegister n) (clk load : Bool) (d : BitVec n), (∀ k : Fin n, (r.get k).p = clk) →
    registerQ (registerStep r load d clk) = registerQ r) ∧
  (∀ (n : Nat) (r : CellRegister n) (load load' : Bool) (d d' : BitVec n),
    registerQ (registerStep (registerStep r load d true) load' d' true) = registerQ (registerStep r load d true))

/-- R76: settling and then committing the two-phase core, whatever its masters and clocks hold, shows exactly the tick of
its committed state, and the settle phase alone shows nothing. That the cycle counter and the mark change in the clk=1
phase and not before is the model's choice (log 32); the level of the machine is log 1. -/
def Obligations.TwoPhaseTickIsTheCycleStep : Prop :=
  ∀ (P : PhaseCore),
    committed (settlePhase (decodeCtl P.ifId.q.instr) P.ifId.q.instr P) = committed P ∧
    ∀ t, step (committed P) = .next t →
      committed (commitPhase (decodeCtl P.ifId.q.instr) P.ifId.q.instr
        (settlePhase (decodeCtl P.ifId.q.instr) P.ifId.q.instr P)) = t

/-! ### The ALU -/

/-- R79: ADD is the exact sum narrowed to n bits, each bit the XOR of the operand bits and the carry rippled from below.
The clause that carry_out says whether the exact sum reached 2^n is the spec's choice (R83, D17, log 18); R79 itself
gives carry_out in its one example only. -/
def Obligations.AddRipplesToTheExactSum : Prop :=
  (∀ (n : Nat) (a b : BitVec n) (cin : Bool),
    (compute a b cin .add).1.toNat = (a.toNat + b.toNat + cin.toNat) % 2 ^ n ∧
    (∀ i, i < n → (compute a b cin .add).1.getLsbD i = (a.getLsbD i ^^ b.getLsbD i ^^ carryInto a b cin i)) ∧
    (compute a b cin .add).2 = decide (2 ^ n ≤ a.toNat + b.toNat + cin.toNat) ∧
    (compute a b false .add).1 = a + b) ∧
  compute 0xFFFFFFFF#32 0x00000001#32 false .add = (0x00000000#32, true)

/-- R80: SUB forces the carry-in, so it is subtraction modulo 2^n whatever cin_base is. -/
def Obligations.SubIgnoresCinBase : Prop :=
  (∀ (n : Nat) (a b : BitVec n) (cin : Bool),
    (compute a b cin .sub).1.toNat = (a.toNat + (~~~b).toNat + 1) % 2 ^ n ∧ (compute a b cin .sub).1 = a - b) ∧
  (compute 0x00000000#32 0x00000001#32 false .sub).1 = 0xFFFFFFFF#32

/-- R81: SLT computes sign XOR overflow of the difference, which is the signed comparison; every other bit is 0. -/
def Obligations.SltIsTheSignedComparison : Prop :=
  (∀ (n : Nat), 0 < n → ∀ (a b : BitVec n) (cin : Bool),
    (compute a b cin .slt).1.toNat = (if a.toInt < b.toInt then 1 else 0) ∧
    (compute a b cin .slt).1.getLsbD 0 =
      ((a - b).msb ^^ ((a.msb != b.msb) && ((a - b).msb != a.msb)))) ∧
  (compute 0x80000000#32 0x00000001#32 false .slt).1 = 1#32 ∧ (compute 0x00000001#32 0x80000000#32 false .slt).1 = 0#32 ∧
  (compute 5#32 5#32 false .slt).1 = 0#32 ∧ (compute 0xFFFFFFFF#32 0#32 false .slt).1 = 1#32

/-- R83 (the meaning of carry_out is the spec's choice D17, log 18): for SUB and SLT it is the unsigned comparison, for
the logic operations and NULL it is 0. -/
def Obligations.CarryOutOfSubIsUnsignedGreaterEqual : Prop :=
  ∀ (n : Nat) (a b : BitVec n) (cin : Bool),
    (compute a b cin .sub).2 = decide (b.toNat ≤ a.toNat) ∧ (compute a b cin .slt).2 = decide (b.toNat ≤ a.toNat) ∧
    ∀ op, op = .and ∨ op = .or ∨ op = .xor ∨ op = .nor ∨ op = .null → (compute a b cin op).2 = false

/-! ### The data memory -/

/-- R38: zero and the error flag when misaligned or out of bounds, else the four bytes, most significant first. -/
def Obligations.ReadIsBigEndianOrZeroWithError : Prop :=
  ∀ (m : Memory) (addr : Word),
    (addr.toNat % 4 ≠ 0 ∨ 4096 ≤ addr.toNat → memRead m addr = (0#32, true)) ∧
    (addr.toNat % 4 = 0 → addr.toNat < 4096 →
      (memRead m addr).2 = false ∧
      (memRead m addr).1.toNat =
        (dmByte m addr.toNat).toNat * 2 ^ 24 + (dmByte m (addr.toNat + 1)).toNat * 2 ^ 16 +
          (dmByte m (addr.toNat + 2)).toNat * 2 ^ 8 + (dmByte m (addr.toNat + 3)).toNat)

/-- R40 (be[0] gating the most significant byte is the spec's inference, log 16): without we and clk, or on an error,
nothing changes; otherwise byte `a + i` takes byte `i` of the word exactly when be[i] is 1, and no other byte changes.
-/
def Obligations.MaskedWriteChangesExactlyTheEnabledLanes : Prop :=
  ∀ (m : Memory) (we clk : Bool) (addr v : Word) (be : BitVec 4), m.wf = true →
    ((memWrite m we clk addr v be).2 = true ↔ (addr.toNat % 4 ≠ 0 ∨ 4096 ≤ addr.toNat)) ∧
    (we = false ∨ clk = false ∨ addr.toNat % 4 ≠ 0 ∨ 4096 ≤ addr.toNat → (memWrite m we clk addr v be).1 = m) ∧
    (we = true → clk = true → addr.toNat % 4 = 0 → addr.toNat < 4096 →
      (∀ i, i < 4 → dmByte (memWrite m we clk addr v be).1 (addr.toNat + i) =
        if be.getMsbD i then (v >>> (24 - 8 * i)).setWidth 8 else dmByte m (addr.toNat + i)) ∧
      ∀ x, x < addr.toNat ∨ addr.toNat + 4 ≤ x → dmByte (memWrite m we clk addr v be).1 x = dmByte m x)

/-- R43, R46 (lane order: log 16): a stored word reads back whole, and no other aligned word changes. -/
def Obligations.StoredWordReadsBack : Prop :=
  ∀ (m : Memory) (addr other v : Word), m.wf = true → addr.toNat % 4 = 0 → addr.toNat < 4096 →
    memRead (memWrite m true true addr v storeEnables).1 addr = (v, false) ∧
    (other ≠ addr → memRead (memWrite m true true addr v storeEnables).1 other = memRead m other)

/-! ### Encoding (the opcode numbers and field positions are the spec's choices D1, D2, log 4 and 5) -/

/-- R55 to R57, R62: the decoder reads back every operand of every instruction, at every value its field admits. -/
def Obligations.DecodeOfEncodeIsTheInstruction : Prop :=
  ∀ (i : Instr), i.WellFormed → decode (encode i) = .ok i

/-- R62, R63: a word decodes to an instruction of a row exactly when it has the row's match under the row's mask. -/
def Obligations.DecodeSelectsTheMatchingRow : Prop :=
  ∀ (w : Word) (r : Mnemonic), (∃ i, decode w = .ok i ∧ i.mnemonic = r) ↔ w &&& opcodeMask r = opcodeMatch r

/-- R58, R62: what the decoder reads is well-formed, and no bit of the word is lost. -/
def Obligations.DecodedInstructionIsWellFormedAndReencodes : Prop :=
  ∀ (w : Word) (i : Instr), decode w = .ok i → i.WellFormed ∧ encode i = w

/-- R67 and the words of R114 to R119, R126: words written out from the spec's fields decode to what they stand for. -/
def Obligations.WordsOfTheSpecDecode : Prop :=
  decode 0x00221820#32 = .ok (.add 3 1 2 0) ∧ decode 0x00221822#32 = .ok (.sub 3 1 2 0) ∧
  decode 0x00221824#32 = .ok (.and 3 1 2 0) ∧ decode 0x00221825#32 = .ok (.or 3 1 2 0) ∧
  decode 0x0022182A#32 = .ok (.slt 3 1 2 0) ∧ decode 0x2001000A#32 = .ok (.addi 1 0 10) ∧
  decode 0x8C020064#32 = .ok (.lw 2 100 0) ∧ decode 0xAC030064#32 = .ok (.sw 3 100 0) ∧
  decode 0x10210002#32 = .ok (.beq 1 1 2) ∧ decode 0x08000008#32 = .ok (.j 8) ∧ decode 0x00000000#32 = .ok .nop

/-- R89: the exclusions hold of the bundle of every word, those with no row among them. -/
def Obligations.EveryDecodedBundleIsExclusive : Prop :=
  ∀ (w : Word), ¬ ((decodeCtl w).memRead = true ∧ (decodeCtl w).memWrite = true) ∧
    ¬ ((decodeCtl w).branch = true ∧ (decodeCtl w).jump = true) ∧
    ((decodeCtl w).memRead = true → (decodeCtl w).regWrite = true ∧ (decodeCtl w).dataSrcToReg = true) ∧
    ((decodeCtl w).memWrite = true → (decodeCtl w).regWrite = false) ∧
    ((decodeCtl w).branch = true → (decodeCtl w).aluOp = .sub)

/-! ### What a step runs -/

/-- R84: the step is the meaning of the instruction the word in IF/ID decodes to (log 2). -/
def Obligations.StepRunsTheDecodedInstruction : Prop :=
  ∀ (s : State) (i : Instr), decode s.ifId.instr = .ok i → step s = exec i s

/-- R93, R94, R98: the word at the program counter is fetched into IF/ID with its pc + 4, and the step after runs the
instruction it decodes to. -/
def Obligations.WordAtThePcRunsOneTickLater : Prop :=
  ∀ (s t : State), step s = .next t → s.flush = false →
    t.ifId = { instr := imemRead s.imem (fetchIndex s.pc), pcPlus4 := s.pc + 4#32 } ∧
    ∀ i, decode (imemRead s.imem (fetchIndex s.pc)) = .ok i → step t = exec i t

/-- R64, R88 (the free bundle is log 7): a word with no row is neither trapped nor refused; it enters ID/EX with its free
bundle and its register and immediate fields. -/
def Obligations.WordWithoutARowRunsOnItsFreeBundle : Prop :=
  ∀ (s : State) (err : DecodeError), decode s.ifId.instr = .error err → s.idEx.ctl.branch = false →
    fetchIndex s.pc < 256 →
    ∃ t, step s = .next t ∧ t.idEx.ctl = bundleCtl (Config.decodeIllegal s.ifId.instr) ∧
      t.idEx.rsData = s.reg (rsIdxOf s.ifId.instr) ∧ t.idEx.rtData = s.reg (rtIdxOf s.ifId.instr) ∧
      t.idEx.rdIdx = rdIdxOf s.ifId.instr ∧ t.idEx.imm = immOf s.ifId.instr ∧ t.idEx.pcPlus4 = s.ifId.pcPlus4

/-- R85, R99: every instruction, unsquashed and with its tick's fetch in range, enters ID/EX with its bundle, its
committed operands, its immediate or jump field, and its own pc + 4. The spec's choices here: the bundle's don't-care
fields are 0 (D5, log 8), and ID/EX carries J's target field in addr26, a field the spec adds (R27, D6, log 6). -/
def Obligations.IssueLatchesBundleAndOperands : Prop :=
  ∀ (i : Instr) (s : State), s.flush = false → s.bothSelects = false → fetchIndex s.pc < 256 →
    ∃ t, exec i s = .next t ∧ t.idEx.ctl = ctlOf i ∧ t.idEx.pcPlus4 = s.ifId.pcPlus4 ∧
      (∀ n, i.rsOperand = some n → t.idEx.rsData = s.reg (regIdx n)) ∧
      (∀ n, i.rtOperand = some n → t.idEx.rtData = s.reg (regIdx n)) ∧
      (∀ v, i.immOperand = some v → t.idEx.imm = v.signExtend 32) ∧
      (∀ a, i = .j a → t.idEx.addr26 = a) ∧
      (∀ k, i.destReg = some k → exDest t.idEx = k)

/-- R150: a register read in ID sees the value before a write-back of the same cycle. -/
def Obligations.ReadInIdSeesTheValueBeforeWriteBack : Prop :=
  ∀ (s t : State), step s = .next t → s.flush = false →
    t.idEx.rsData = s.reg t.idEx.rsIdx ∧ t.idEx.rtData = s.reg t.idEx.rtIdx

/-- R112, R130 (the fetch bound and the faults are the spec's choices, logs 10 and 15): an instruction's tick answers a
next state exactly when the PC selects are not both 1 and its fetch is in range or flushed. -/
def Obligations.ExecCompletesExactlyWhenTheFetchIsInRange : Prop :=
  ∀ (i : Instr) (s : State), (∃ t, exec i s = .next t) ↔
    ¬ (s.idEx.ctl.branch = true ∧ s.idEx.rsData = s.idEx.rtData ∧ s.idEx.ctl.jump = true) ∧
    ((s.idEx.ctl.branch = true ∧ s.idEx.rsData = s.idEx.rtData) ∨ s.pc.toNat / 4 < 256)

/-- R130 (logs 10, 15, 23): why a step faults, each cause in its own words, and both recorded when both hold. -/
def Obligations.StepFaultsExactlyForTheRecordedCauses : Prop :=
  ∀ (s : State) (f : Fault), step s = .fault f ↔
    (f = .pcSrcException ∧ (s.idEx.ctl.branch = true ∧ s.idEx.rsData = s.idEx.rtData ∧ s.idEx.ctl.jump = true) ∧
      s.pc.toNat / 4 < 256) ∨
    (f = .pcSrcExceptionAndFetchOutOfRange ∧
      (s.idEx.ctl.branch = true ∧ s.idEx.rsData = s.idEx.rtData ∧ s.idEx.ctl.jump = true) ∧ 256 ≤ s.pc.toNat / 4) ∨
    (f = .fetchOutOfRange ∧ ¬ (s.idEx.ctl.branch = true ∧ s.idEx.rsData = s.idEx.rtData) ∧ 256 ≤ s.pc.toNat / 4)

/-- R64, R112: no word is refused. -/
def Obligations.StepNeverRefuses : Prop := ∀ (s : State) (r : Refusal), step s ≠ .refused r

/-! ### What one tick does to each kind of state -/

/-- R108: at most one register is written, by the instruction in WB, with the data its bundle selects. -/
def Obligations.WriteBackLoadsOneRegister : Prop :=
  ∀ (s t : State), step s = .next t → ∀ k,
    t.reg k = if s.memWb.wb.regWrite = true ∧ s.memWb.writeRegIdx = k then
        (if s.memWb.wb.dataSrcToReg then s.memWb.readData else s.memWb.aluResult)
      else s.reg k

/-- R39, R41, R107 (be = 1111 and the read before the write are logs 16 and 25; the split of the mem and wb bundles is the
spec's choice D28, log 19): MEM/WB takes the data read before this edge's write, for every instruction, and the data
memory takes the store in MEM, if it has no error. -/
def Obligations.MemStageReadsThenStores : Prop :=
  ∀ (s t : State), step s = .next t → s.dm.wf = true →
    t.memWb = { wb := s.exMem.wb, readData := (memRead s.dm s.exMem.aluResult).1, aluResult := s.exMem.aluResult,
                writeRegIdx := s.exMem.writeRegIdx } ∧
    ∀ a, dmByte t.dm a =
      if s.exMem.mem.memWrite = true ∧ s.exMem.aluResult.toNat % 4 = 0 ∧ s.exMem.aluResult.toNat < 4096 ∧
          s.exMem.aluResult.toNat ≤ a ∧ a < s.exMem.aluResult.toNat + 4 then
        (s.exMem.writeData >>> (24 - 8 * (a - s.exMem.aluResult.toNat))).setWidth 8
      else dmByte s.dm a

/-- R101, R104, R106 (EX/MEM's unconditional load and cin_base = 0 are logs 9 and 18; which bits its mem and wb bundles
hold is the spec's choice, R28, D28, log 19): EX/MEM takes those bits, the ALU's result of the selected operand, the
store data and the selected destination. -/
def Obligations.ExStageLatchesTheAluResult : Prop :=
  ∀ (s t : State), step s = .next t →
    t.exMem.mem = { memRead := s.idEx.ctl.memRead, memWrite := s.idEx.ctl.memWrite } ∧
    t.exMem.wb = { regWrite := s.idEx.ctl.regWrite, dataSrcToReg := s.idEx.ctl.dataSrcToReg } ∧
    t.exMem.writeData = s.idEx.rtData ∧
    t.exMem.writeRegIdx = (if s.idEx.ctl.regDst then s.idEx.rdIdx else s.idEx.rtIdx) ∧
    ∀ b, b = (if s.idEx.ctl.aluSrc then s.idEx.imm else s.idEx.rtData) →
      t.exMem.aluResult = match s.idEx.ctl.aluOp with
        | .and => s.idEx.rsData &&& b
        | .or => s.idEx.rsData ||| b
        | .xor => s.idEx.rsData ^^^ b
        | .nor => ~~~(s.idEx.rsData ||| b)
        | .add => s.idEx.rsData + b
        | .sub => s.idEx.rsData - b
        | .slt => if s.idEx.rsData.toInt < b.toInt then 1#32 else 0#32
        | .null => 0#32

/-- R95, R97, R102, R103 (the jump target and the roles of the select bits are the spec's choices, log 6 and 10): the PC
is written at every edge with the branch target, the jump target or pc + 4. -/
def Obligations.PcTakesTheSelectedTarget : Prop :=
  ∀ (s t : State), step s = .next t →
    t.pc =
      if s.idEx.ctl.branch = true ∧ s.idEx.rsData = s.idEx.rtData then s.idEx.pcPlus4 + (s.idEx.imm <<< 2)
      else if s.idEx.ctl.jump = true then s.idEx.pcPlus4.extractLsb' 28 4 ++ s.idEx.addr26 ++ 0#2
      else s.pc + 4#32

/-- R98, R100, R109 (pc_plus4 passing through ID/EX is the configuration point's default, log 20): a taken branch in EX
always answers a next state, redirects the PC, and puts bubbles in IF/ID and ID/EX. -/
def Obligations.TakenBranchRedirectsAndFlushes : Prop :=
  ∀ (s : State), s.idEx.ctl.branch = true → s.idEx.rsData = s.idEx.rtData → s.idEx.ctl.jump = false →
    ∃ t, step s = .next t ∧ t.pc = s.idEx.pcPlus4 + (s.idEx.imm <<< 2) ∧
      t.ifId = { instr := 0#32, pcPlus4 := s.pc + 4#32 } ∧ t.idEx = { IdEx.zero with pcPlus4 := s.ifId.pcPlus4 }

/-- R110: the two instructions behind a taken branch leave no trace. Whatever word stands in IF/ID and whatever the
instruction memory holds, the next state is the same but for the instruction memory itself. -/
def Obligations.SquashedInstructionsLeaveNoTrace : Prop :=
  ∀ (s : State) (word : Word) (im : Imem), s.flush = true →
    ∃ t, step s = .next t ∧
      step { s with ifId := { s.ifId with instr := word }, imem := im } = .next { t with imem := im }

/-- R34 (the unbounded counter is the spec's choice, log 21), R48, R143: each tick advances the counter by one and leaves
the instruction memory alone. -/
def Obligations.TickAdvancesTheCounterAndKeepsTheProgram : Prop :=
  ∀ (s t : State), step s = .next t → t.cycle = s.cycle + 1 ∧ t.imem = s.imem

/-- R129 (the mark is the spec's model bookkeeping, log 17): the mark is sticky, and a tick sets it exactly when a load or
store in MEM has a bad address. -/
def Obligations.ErrorMarkIsSetByLoadsAndStoresOnly : Prop :=
  ∀ (s t : State), step s = .next t →
    (t.dmErrorSeen = true ↔ s.dmErrorSeen = true ∨
      ((s.exMem.mem.memRead = true ∨ s.exMem.mem.memWrite = true) ∧
        (s.exMem.aluResult.toNat % 4 ≠ 0 ∨ 4096 ≤ s.exMem.aluResult.toNat)))

/-! ### What each instruction does, and that it completes -/

/-- R114. -/
def Obligations.AddWritesTheSum : Prop :=
  ∀ (rd rs rt : Nat) (shamt : BitVec 5) (s : State),
    (∀ d e m w, Life (.add rd rs rt shamt) s d e m w → w.reg (regIdx rd) = s.reg (regIdx rs) + s.reg (regIdx rt)) ∧
    (ClearForFour s → ∃ d e m w, exec (.add rd rs rt shamt) s = .next d ∧ Life (.add rd rs rt shamt) s d e m w ∧
      w.reg (regIdx rd) = s.reg (regIdx rs) + s.reg (regIdx rt))

/-- R115. -/
def Obligations.SubWritesTheDifference : Prop :=
  ∀ (rd rs rt : Nat) (shamt : BitVec 5) (s : State),
    (∀ d e m w, Life (.sub rd rs rt shamt) s d e m w → w.reg (regIdx rd) = s.reg (regIdx rs) - s.reg (regIdx rt)) ∧
    (ClearForFour s → ∃ d e m w, exec (.sub rd rs rt shamt) s = .next d ∧ Life (.sub rd rs rt shamt) s d e m w ∧
      w.reg (regIdx rd) = s.reg (regIdx rs) - s.reg (regIdx rt))

/-- R116. -/
def Obligations.AndWritesTheConjunction : Prop :=
  ∀ (rd rs rt : Nat) (shamt : BitVec 5) (s : State),
    (∀ d e m w, Life (.and rd rs rt shamt) s d e m w → w.reg (regIdx rd) = s.reg (regIdx rs) &&& s.reg (regIdx rt)) ∧
    (ClearForFour s → ∃ d e m w, exec (.and rd rs rt shamt) s = .next d ∧ Life (.and rd rs rt shamt) s d e m w ∧
      w.reg (regIdx rd) = s.reg (regIdx rs) &&& s.reg (regIdx rt))

/-- R117. -/
def Obligations.OrWritesTheDisjunction : Prop :=
  ∀ (rd rs rt : Nat) (shamt : BitVec 5) (s : State),
    (∀ d e m w, Life (.or rd rs rt shamt) s d e m w → w.reg (regIdx rd) = s.reg (regIdx rs) ||| s.reg (regIdx rt)) ∧
    (ClearForFour s → ∃ d e m w, exec (.or rd rs rt shamt) s = .next d ∧ Life (.or rd rs rt shamt) s d e m w ∧
      w.reg (regIdx rd) = s.reg (regIdx rs) ||| s.reg (regIdx rt))

/-- R118. -/
def Obligations.SltWritesTheSignedComparison : Prop :=
  ∀ (rd rs rt : Nat) (shamt : BitVec 5) (s : State),
    (∀ d e m w, Life (.slt rd rs rt shamt) s d e m w →
      w.reg (regIdx rd) = if (s.reg (regIdx rs)).toInt < (s.reg (regIdx rt)).toInt then 1#32 else 0#32) ∧
    (ClearForFour s → ∃ d e m w, exec (.slt rd rs rt shamt) s = .next d ∧ Life (.slt rd rs rt shamt) s d e m w ∧
      w.reg (regIdx rd) = if (s.reg (regIdx rs)).toInt < (s.reg (regIdx rt)).toInt then 1#32 else 0#32)

/-- R119. -/
def Obligations.AddiWritesTheSumWithTheImmediate : Prop :=
  ∀ (rt rs : Nat) (imm : BitVec 16) (s : State),
    (∀ d e m w, Life (.addi rt rs imm) s d e m w → w.reg (regIdx rt) = s.reg (regIdx rs) + imm.signExtend 32) ∧
    (ClearForFour s → ∃ d e m w, exec (.addi rt rs imm) s = .next d ∧ Life (.addi rt rs imm) s d e m w ∧
      w.reg (regIdx rt) = s.reg (regIdx rs) + imm.signExtend 32)

/-- R121, R122: the loaded word is memory's at the start of the MEM cycle; a bad address loads 0 and sets the mark (the
spec's model bookkeeping, D16, log 17). -/
def Obligations.LwLoadsTheWordOrZero : Prop :=
  ∀ (rt rs : Nat) (imm : BitVec 16) (s : State) (ea : Word), ea = s.reg (regIdx rs) + imm.signExtend 32 →
    (∀ d e m w, Life (.lw rt imm rs) s d e m w →
      w.reg (regIdx rt) = (if ea.toNat % 4 = 0 ∧ ea.toNat < 4096 then dmWord e.dm ea.toNat else 0#32) ∧
      m.dmErrorSeen = (e.dmErrorSeen || !decide (ea.toNat % 4 = 0 ∧ ea.toNat < 4096))) ∧
    (ClearForFour s → ∃ d e m w, exec (.lw rt imm rs) s = .next d ∧ Life (.lw rt imm rs) s d e m w ∧
      w.reg (regIdx rt) = if ea.toNat % 4 = 0 ∧ ea.toNat < 4096 then dmWord e.dm ea.toNat else 0#32)

/-- R121, R123: the four bytes at the effective address take the register read in ID, most significant first (the mask
1111 and its lane order are log 16); a bad address stores nothing and sets the mark (the spec's model bookkeeping,
D16, log 17). -/
def Obligations.SwStoresTheWordOrNothing : Prop :=
  ∀ (rt rs : Nat) (imm : BitVec 16) (s : State) (ea : Word), ea = s.reg (regIdx rs) + imm.signExtend 32 →
    s.dm.wf = true →
    (∀ d e m w, Life (.sw rt imm rs) s d e m w →
      (∀ a, dmByte m.dm a =
        if (ea.toNat % 4 = 0 ∧ ea.toNat < 4096) ∧ ea.toNat ≤ a ∧ a < ea.toNat + 4 then
          (s.reg (regIdx rt) >>> (24 - 8 * (a - ea.toNat))).setWidth 8
        else dmByte e.dm a) ∧
      m.dmErrorSeen = (e.dmErrorSeen || !decide (ea.toNat % 4 = 0 ∧ ea.toNat < 4096))) ∧
    (ClearForFour s → ∃ d e m w, exec (.sw rt imm rs) s = .next d ∧ Life (.sw rt imm rs) s d e m w ∧
      ((ea.toNat % 4 = 0 ∧ ea.toNat < 4096) → dmWord m.dm ea.toNat = s.reg (regIdx rt)))

/-- R125: equal operands. The PC takes (a + 4) + 4 * off one tick after ID, and the two younger instructions are squashed:
the one in IF/ID becomes a bubble in ID/EX and the fetched one a NOP in IF/ID. That the bubble keeps the old IF/ID
pc_plus4 is the configuration point IDEX_FLUSH_KEEPS_PC4 at its default (D20, log 20). -/
def Obligations.BeqTakenRedirectsAndSquashesTwo : Prop :=
  ∀ (rs rt : Nat) (off : BitVec 16) (s : State), s.reg (regIdx rs) = s.reg (regIdx rt) →
    (∀ d, s.flush = false → exec (.beq rs rt off) s = .next d →
      ∃ e, step d = .next e ∧ e.pc = s.ifId.pcPlus4 + (off.signExtend 32 <<< 2) ∧
        e.ifId = { instr := 0#32, pcPlus4 := d.pc + 4#32 } ∧ e.idEx = { IdEx.zero with pcPlus4 := d.ifId.pcPlus4 }) ∧
    (ClearForTwo s → ∃ d e, exec (.beq rs rt off) s = .next d ∧ step d = .next e ∧
      e.pc = s.ifId.pcPlus4 + (off.signExtend 32 <<< 2))

/-- R125: different operands. Nothing happens: the PC moves on, and both younger instructions continue. -/
def Obligations.BeqNotTakenHasNoEffect : Prop :=
  ∀ (rs rt : Nat) (off : BitVec 16) (s : State), s.reg (regIdx rs) ≠ s.reg (regIdx rt) →
    (∀ d e, s.flush = false → exec (.beq rs rt off) s = .next d → step d = .next e →
      e.pc = d.pc + 4#32 ∧ e.ifId = { instr := imemRead d.imem (fetchIndex d.pc), pcPlus4 := d.pc + 4#32 } ∧
      e.idEx = idStage (decodeCtl d.ifId.instr) d.ifId.instr d.regs d.ifId.pcPlus4) ∧
    (ClearForTwo s → ∃ d e, exec (.beq rs rt off) s = .next d ∧ step d = .next e ∧ e.pc = s.pc + 8#32)

/-- R126, R153 (J's stage, target and delay slots are the spec's choice D6, log 6): the PC takes the jump target one tick
after ID, and both younger instructions continue. -/
def Obligations.JumpRedirectsAfterTwoDelaySlots : Prop :=
  ∀ (addr26 : BitVec 26) (s : State),
    (∀ d e, s.flush = false → exec (.j addr26) s = .next d → step d = .next e →
      e.pc.toNat = s.ifId.pcPlus4.toNat / 2 ^ 28 * 2 ^ 28 + addr26.toNat * 4 ∧
      e.ifId = { instr := imemRead d.imem (fetchIndex d.pc), pcPlus4 := d.pc + 4#32 } ∧
      e.idEx = idStage (decodeCtl d.ifId.instr) d.ifId.instr d.regs d.ifId.pcPlus4) ∧
    (ClearForTwo s → ∃ d e, exec (.j addr26) s = .next d ∧ step d = .next e ∧
      e.pc.toNat = s.ifId.pcPlus4.toNat / 2 ^ 28 * 2 ^ 28 + addr26.toNat * 4)

/-- R127: a NOP changes no register, no memory, no PC but by the next fetch, and no mark. -/
def Obligations.NopHasNoEffect : Prop :=
  ∀ (s : State),
    (∀ d e m w, Life .nop s d e m w →
      e.pc = d.pc + 4#32 ∧ m.dm = e.dm ∧ m.dmErrorSeen = e.dmErrorSeen ∧ ∀ k, w.reg k = m.reg k) ∧
    (ClearForFour s → ∃ d e m w, exec .nop s = .next d ∧ Life .nop s d e m w)

/-! ### Frames -/

/-- R16: at an instruction's WB tick every register but its destination is unchanged; SW, BEQ, J and NOP have none. -/
def Obligations.OnlyTheDestinationRegisterChanges : Prop :=
  ∀ (i : Instr) (s d e m w : State), Life i s d e m w → ∀ k, i.destReg ≠ some k → w.reg k = m.reg k

/-- R16, R113, R123: at an instruction's MEM tick every byte outside the four a store writes reads as before; every other
instruction, and a store with a bad address, changes none. The stored bytes start at the effective address computed
from the registers its ID tick reads. -/
def Obligations.OnlyTheStoredBytesChange : Prop :=
  ∀ (i : Instr) (s d e m w : State), Life i s d e m w → s.dm.wf = true →
    ∀ a, i.stores s a = false → dmByte m.dm a = dmByte e.dm a

/-- R113, R127: at the EX tick of an instruction that is neither BEQ nor J, the PC moves to pc + 4 and nothing is
squashed. -/
def Obligations.OnlyBranchesAndJumpsMoveThePc : Prop :=
  ∀ (i : Instr) (s d e m w : State), Life i s d e m w → i.mnemonic ≠ .BEQ → i.mnemonic ≠ .J →
    e.pc = d.pc + 4#32 ∧ e.ifId = { instr := imemRead d.imem (fetchIndex d.pc), pcPlus4 := d.pc + 4#32 } ∧
    e.idEx = idStage (decodeCtl d.ifId.instr) d.ifId.instr d.regs d.ifId.pcPlus4

/-- R91, R113, R129 (the mark is the spec's model bookkeeping, D16, log 17): an instruction's MEM tick sets the error mark
only for a load or store with a bad address. -/
def Obligations.OnlyBadAccessesSetTheMark : Prop :=
  ∀ (i : Instr) (s d e m w : State), Life i s d e m w →
    (m.dmErrorSeen = true ↔ e.dmErrorSeen = true ∨
      ∃ ea, i.accessAddress s = some ea ∧ (ea.toNat % 4 ≠ 0 ∨ 4096 ≤ ea.toNat))

/-- R99, R111: an instruction's ID tick is that of a NOP in its place but for ID/EX: it changes no register, no memory, no
PC, no other pipeline register and no mark. -/
def Obligations.IssueChangesOnlyIdEx : Prop :=
  ∀ (i : Instr) (s t : State), exec i s = .next t →
    ∃ u, exec .nop s = .next u ∧ t = { u with idEx := t.idEx } ∧ (s.flush = true → t = u)

/-- R111: the frame of one tick. A register changes only by the instruction in WB, a byte only by the store in MEM, and
the instruction memory not at all. -/
def Obligations.TickChangesOnlyWhatItsStagesWrite : Prop :=
  ∀ (i : Instr) (s t : State), exec i s = .next t → s.dm.wf = true →
    (∀ k, (s.memWb.wb.regWrite = false ∨ s.memWb.writeRegIdx ≠ k) → t.reg k = s.reg k) ∧
    (∀ a, (s.exMem.mem.memWrite = false ∨ dmError s.exMem.aluResult = true ∨ a < s.exMem.aluResult.toNat ∨
      s.exMem.aluResult.toNat + 4 ≤ a) → dmByte t.dm a = dmByte s.dm a) ∧
    t.imem = s.imem ∧ (s.dmErrorSeen = true → t.dmErrorSeen = true)

/-! ### Hazards -/

/-- R149: a register writer is invisible to the three instructions behind it. A NOP in its place gives the same registers
at their ID ticks and the same memory, PC and pipeline contents from ID on; only the destination differs after
write-back. -/
def Obligations.WriterIsInvisibleUntilWriteBack : Prop :=
  ∀ (i : Instr) (dest : BitVec 2) (s d e m w : State), Life i s d e m w → i.destReg = some dest →
    ∃ d' e' m' w', Life .nop s d' e' m' w' ∧ d'.regs = d.regs ∧ e'.regs = e.regs ∧ m'.regs = m.regs ∧
      (∀ k, k ≠ dest → w'.reg k = w.reg k) ∧ w'.dm = w.dm ∧ w'.pc = w.pc ∧ w'.ifId = w.ifId ∧ w'.idEx = w.idEx

/-- R151: a load in the slot right behind a store to its address loads the stored word. -/
def Obligations.NextLoadSeesTheStore : Prop :=
  ∀ (rt rs rt' rs' : Nat) (imm imm' : BitVec 16) (s d e m w v : State), Life (.sw rt imm rs) s d e m w →
    decode d.ifId.instr = .ok (.lw rt' imm' rs') → step w = .next v → s.dm.wf = true →
    effectiveAddress (d.reg (regIdx rs')) imm' = effectiveAddress (s.reg (regIdx rs)) imm →
    dmError (effectiveAddress (s.reg (regIdx rs)) imm) = false →
    v.reg (regIdx rt') = s.reg (regIdx rt)

/-! ### Whole-machine rules -/

/-- The reset state (R146; its zeros are the spec's choice, logs 11 to 14) meets the invariant. -/
def Obligations.ResetMeetsTheInvariant : Prop := State.reset.Inv

/-- R21, R89, 20_memory.md R37: every step keeps the memories canonical, every pc a multiple of 4, and every bundle in
flight exclusive. -/
def Obligations.StepKeepsTheInvariant : Prop := ∀ (s t : State), s.Inv → step s = .next t → t.Inv

/-- R96 (the faults are logs 10 and 15): in no state that meets the invariant are both PC selects 1, so the only fault is
a fetch past the memory. -/
def Obligations.ExceptionVectorIsNeverSelected : Prop :=
  ∀ (s : State), s.Inv → ¬ (s.b0 = true ∧ s.b1 = true) ∧
    ∀ f, step s = .fault f → f = .fetchOutOfRange ∧ s.flush = false ∧ 256 ≤ s.pc.toNat / 4

/-- R85, R90, R100: don't-care bundle fields (log 8), and the pc_plus4 of a bubble (log 20) or of a sequential
instruction, never reach a register, a memory, the PC, IF/ID, the counter or the mark, now or in any later tick. -/
def Obligations.DontCaresHaveNoEffect : Prop :=
  ∀ (s t : State), SameEffect s t →
    (∀ s', step s = .next s' → ∃ t', step t = .next t' ∧ SameEffect s' t') ∧
    (∀ f, step s = .fault f → step t = .fault f)

/-- R32, R33, R142, R148 (0 in unloaded words and bytes is the spec's choice, log 13 and 14): the launch state holds the
program from word 0, cut at 256 words, the preloaded registers, and the preloaded data; and it meets the invariant. -/
def Obligations.LaunchLoadsProgramRegistersAndData : Prop :=
  ∀ (program : List Word) (gprInit : Regs) (dmInit : List Byte),
    (∀ i, i < 256 → imemRead (launch program gprInit dmInit).imem i = program.getD i 0#32) ∧
    (launch program gprInit dmInit).regs = gprInit ∧
    (∀ a, a < 4096 → dmByte (launch program gprInit dmInit).dm a = dmInit.getD a 0#8) ∧
    (launch program gprInit dmInit).Inv

/-- R93, from the reset the spec chose: after launch no register is written in the first four ticks, no memory in the
first three, and the PC is 4n after n of the first two, whatever the program. That PC and pipeline registers start at
0, so that nothing is in flight, is the choice D10 (log 11). R147 says four cycles for memory and PC too; this
statement departs from it and follows R93, by which the first instruction's store is written at the edge ending cycle
3 and its branch or jump moves the PC at the edge ending cycle 2. -/
def Obligations.FirstTicksRetireNothing : Prop :=
  ∀ (program : List Word) (gprInit : Regs) (dmInit : List Byte) (n : Nat) (t : State),
    Sys2Proof.core.run n (launch program gprInit dmInit) = .next t →
    (n ≤ 4 → t.regs = gprInit) ∧ (n ≤ 3 → t.dm = (launch program gprInit dmInit).dm) ∧
    (n ≤ 2 → t.pc.toNat = 4 * n)
end

