-- ==== Sys2Proof/Laws/Alu.lean ====
section
/-! SUPPORT. The adder as modular arithmetic, and what each ALU operation gives. -/

namespace Sys2Proof.Machine

variable {n : Nat} (a b : BitVec n)

@[simp] theorem select_false {α : Type} (x y : α) : select x y false = x := rfl
@[simp] theorem select_true {α : Type} (x y : α) : select x y true = y := rfl

/-- With carry-in 0 the adder is addition modulo 2^n. -/
theorem adder_false : adder a b false = a + b := by
  apply BitVec.eq_of_toNat_eq
  simp [adder]

/-- On the SUB datapath the adder is subtraction modulo 2^n. -/
theorem adder_not_true : adder a (~~~b) true = a - b := by
  apply BitVec.eq_of_toNat_eq
  have := b.isLt
  simp only [adder, BitVec.toNat_ofNat, BitVec.toNat_not, BitVec.toNat_sub, Bool.toNat_true]
  congr 1
  omega

@[simp] theorem compute_and (c : Bool) : (compute a b c .and).1 = a &&& b := rfl
@[simp] theorem compute_or (c : Bool) : (compute a b c .or).1 = a ||| b := rfl
@[simp] theorem compute_xor (c : Bool) : (compute a b c .xor).1 = a ^^^ b := rfl
@[simp] theorem compute_nor (c : Bool) : (compute a b c .nor).1 = ~~~(a ||| b) := rfl
@[simp] theorem compute_null (c : Bool) : (compute a b c .null).1 = 0 := rfl
@[simp] theorem compute_add : (compute a b false .add).1 = a + b := adder_false a b
@[simp] theorem compute_sub (c : Bool) : (compute a b c .sub).1 = a - b := adder_not_true a b

/-- The XOR gate built from NOT, AND and OR. -/
@[simp] theorem gateXor_eq (x y : Bool) : gateXor x y = (x ^^ y) := by cases x <;> cases y <;> rfl

/-- The SUB-datapath comparison, as the difference's sign corrected by its overflow. -/
theorem compute_slt (c : Bool) :
    (compute a b c .slt).1 = (BitVec.ofBool (lessThan a b (a - b))).setWidth n := by
  simp [compute, aluResult, adder_not_true]

end Sys2Proof.Machine
end

