-- ==== Sys2Proof/Laws/Control.lean ====
section
/-! SUPPORT. The bundles: the free DECODE_ILLEGAL takes every bundle R89 allows and no other, and so does every decoded word. -/

namespace Sys2Proof.Machine

/-- A free bundle meets the exclusions of 41_decoder.md R89. -/
theorem bundleCtl_exclusive (b : ExclusiveBundle) : (bundleCtl b).exclusive = true := by
  obtain ⟨d, a, m, f⟩ := b
  cases m <;> cases f <;> simp [bundleCtl, ctlNop, Ctl.exclusive]

/-- ... and every bundle that meets them is one: the free value loses no behaviour the spec allows. -/
theorem exists_bundleCtl {c : Ctl} (h : c.exclusive = true) : ∃ b, bundleCtl b = c := by
  obtain ⟨d, a, ds, rw, mr, mw, br, jp, op⟩ := c
  refine ⟨⟨d, a, if mr then .load else if mw then .store ds else .idle rw ds,
    if br then .branch else if jp then .jump op else .sequential op⟩, ?_⟩
  revert h
  cases mr <;> cases mw <;> cases br <;> cases jp <;> cases rw <;> cases ds <;>
    simp [Ctl.exclusive, bundleCtl, ctlNop] <;> (intro h; exact h.symm)

/-- Every row of the decoder's table meets the exclusions. -/
theorem ctlOf_exclusive (i : Instr) : (ctlOf i).exclusive = true := by cases i <;> rfl

theorem decodeCtl_of_ok {w : Word} {i : Instr} (h : decode w = .ok i) : decodeCtl w = ctlOf i := by simp [decodeCtl, h]

theorem decodeCtl_of_error {w : Word} {e : DecodeError} (h : decode w = .error e) : decodeCtl w = ctlWithoutRow w := by
  simp [decodeCtl, h]

/-- Whatever word is decoded, its bundle meets the exclusions. -/
theorem decodeCtl_exclusive (w : Word) : (decodeCtl w).exclusive = true := by
  unfold decodeCtl
  split
  · exact ctlOf_exclusive _
  · exact bundleCtl_exclusive _

/-- No exclusive bundle asks for a branch and a jump. -/
theorem not_branch_and_jump {c : Ctl} (h : c.exclusive = true) : ¬ (c.branch = true ∧ c.jump = true) := by
  simp only [Ctl.exclusive, Bool.and_eq_true, Bool.not_eq_true', Bool.and_eq_false_iff] at h
  rintro ⟨hb, hj⟩
  rcases h.1.1.1.2 with h' | h' <;> simp_all

end Sys2Proof.Machine
end

