-- ==== Sys2Proof/Laws/Decode.lean ====
section
/-! SUPPORT. The decoder undone by the encoder, and what the ID stage extracts from an encoded word. -/

namespace Sys2Proof

open Machine

/-! ### The rows of the decoder, one by one (30_encoding.md R63) -/

section Rows
variable {w : Word}

theorem decode_nop : decode 0#32 = .ok .nop := rfl
theorem decode_add (h0 : w ≠ 0#32) (ho : opcodeField w = opRType) (hf : functField w = functAdd) :
    decode w = .ok (.add (rdField w) (rsField w) (rtField w) (shamtField w)) := by rw [decode, if_neg h0, ho, hf]; rfl
theorem decode_sub (h0 : w ≠ 0#32) (ho : opcodeField w = opRType) (hf : functField w = functSub) :
    decode w = .ok (.sub (rdField w) (rsField w) (rtField w) (shamtField w)) := by rw [decode, if_neg h0, ho, hf]; rfl
theorem decode_and (h0 : w ≠ 0#32) (ho : opcodeField w = opRType) (hf : functField w = functAnd) :
    decode w = .ok (.and (rdField w) (rsField w) (rtField w) (shamtField w)) := by rw [decode, if_neg h0, ho, hf]; rfl
theorem decode_or (h0 : w ≠ 0#32) (ho : opcodeField w = opRType) (hf : functField w = functOr) :
    decode w = .ok (.or (rdField w) (rsField w) (rtField w) (shamtField w)) := by rw [decode, if_neg h0, ho, hf]; rfl
theorem decode_slt (h0 : w ≠ 0#32) (ho : opcodeField w = opRType) (hf : functField w = functSlt) :
    decode w = .ok (.slt (rdField w) (rsField w) (rtField w) (shamtField w)) := by rw [decode, if_neg h0, ho, hf]; rfl
theorem decode_addi (h0 : w ≠ 0#32) (ho : opcodeField w = opAddi) :
    decode w = .ok (.addi (rtField w) (rsField w) (imm16Field w)) := by rw [decode, if_neg h0, ho]; rfl
theorem decode_lw (h0 : w ≠ 0#32) (ho : opcodeField w = opLw) :
    decode w = .ok (.lw (rtField w) (imm16Field w) (rsField w)) := by rw [decode, if_neg h0, ho]; rfl
theorem decode_sw (h0 : w ≠ 0#32) (ho : opcodeField w = opSw) :
    decode w = .ok (.sw (rtField w) (imm16Field w) (rsField w)) := by rw [decode, if_neg h0, ho]; rfl
theorem decode_beq (h0 : w ≠ 0#32) (ho : opcodeField w = opBeq) :
    decode w = .ok (.beq (rsField w) (rtField w) (imm16Field w)) := by rw [decode, if_neg h0, ho]; rfl
theorem decode_j (h0 : w ≠ 0#32) (ho : opcodeField w = opJ) :
    decode w = .ok (.j (addr26Field w)) := by rw [decode, if_neg h0, ho]; rfl

end Rows

/-! ### The fields of a word put back together -/

theorem encodeR_fields (w : Word) :
    encodeR (rdField w) (rsField w) (rtField w) (shamtField w) (functField w) =
      opRType ++ w.extractLsb' 21 5 ++ w.extractLsb' 16 5 ++ w.extractLsb' 11 5 ++ w.extractLsb' 6 5 ++ w.extractLsb' 0 6 := by
  simp only [encodeR, regField, rsField, rtField, rdField, shamtField, functField, BitVec.ofNat_toNat, BitVec.setWidth_eq]

theorem encodeI_fields (op : BitVec 6) (w : Word) :
    encodeI op (rsField w) (rtField w) (imm16Field w) =
      op ++ w.extractLsb' 21 5 ++ w.extractLsb' 16 5 ++ w.extractLsb' 0 16 := by
  simp only [encodeI, regField, rsField, rtField, imm16Field, BitVec.ofNat_toNat, BitVec.setWidth_eq]

theorem encodeR_of_fields {w : Word} (h : opcodeField w = opRType) :
    encodeR (rdField w) (rsField w) (rtField w) (shamtField w) (functField w) = w := by
  rw [encodeR_fields, ← h]
  apply BitVec.eq_of_getLsbD_eq
  intro i hi
  simp only [opcodeField, BitVec.getLsbD_append, BitVec.getLsbD_extractLsb']
  repeat' split
  all_goals rw [decide_eq_true (by omega), Bool.true_and]; congr 1; omega

theorem encodeI_of_fields {op : BitVec 6} {w : Word} (h : opcodeField w = op) :
    encodeI op (rsField w) (rtField w) (imm16Field w) = w := by
  rw [encodeI_fields, ← h]
  apply BitVec.eq_of_getLsbD_eq
  intro i hi
  simp only [opcodeField, BitVec.getLsbD_append, BitVec.getLsbD_extractLsb']
  repeat' split
  all_goals rw [decide_eq_true (by omega), Bool.true_and]; congr 1; omega

theorem encodeJ_of_fields {op : BitVec 6} {w : Word} (h : opcodeField w = op) : encodeJ op (addr26Field w) = w := by
  rw [encodeJ, ← h]
  apply BitVec.eq_of_getLsbD_eq
  intro i hi
  simp only [opcodeField, addr26Field, BitVec.getLsbD_append, BitVec.getLsbD_extractLsb']
  repeat' split
  all_goals rw [decide_eq_true (by omega), Bool.true_and]; congr 1; omega

/-- Encoding what the decoder read gives the word back: decoding drops no bit. -/
theorem encode_of_decode {w : Word} {i : Instr} (h : decode w = .ok i) : encode i = w := by
  unfold decode at h
  split at h
  · next hz => cases h; exact hz.symm
  · split at h
    · next hop =>
      have hr := encodeR_of_fields hop
      repeat' split at h
      all_goals first
        | (next hf => cases h; rw [hf] at hr; exact hr)
        | cases h
    · repeat' split at h
      all_goals first
        | (next hop => cases h; simp only [encode]; with_reducible first | exact encodeI_of_fields hop | exact encodeJ_of_fields hop)
        | cases h

/-! ### What the ID stage extracts (30_encoding.md R58, R59) -/

/-- A register field and the index it names agree on their low two bits. -/
theorem regField_bit (n : Nat) (i : Nat) (h5 : i < 5) (h : i < 2) : (regField n)[i] = (regIdx n)[i] := by
  simp [regField, regIdx, ← BitVec.getLsbD_eq_getElem, BitVec.getLsbD_ofNat, h5, h]

section Extract
variable (rd rs rt : Nat) (shamt : BitVec 5) (funct op : BitVec 6) (imm : BitVec 16) (addr26 : BitVec 26)

@[simp] theorem rsIdxOf_encodeR : rsIdxOf (encodeR rd rs rt shamt funct) = regIdx rs := by
  apply BitVec.eq_of_getLsbD_eq
  intro i hi
  simp only [rsIdxOf, encodeR, BitVec.getLsbD_extractLsb', BitVec.getLsbD_append]
  interval_cases i <;> simp [regField_bit]

@[simp] theorem rtIdxOf_encodeR : rtIdxOf (encodeR rd rs rt shamt funct) = regIdx rt := by
  apply BitVec.eq_of_getLsbD_eq
  intro i hi
  simp only [rtIdxOf, encodeR, BitVec.getLsbD_extractLsb', BitVec.getLsbD_append]
  interval_cases i <;> simp [regField_bit]

@[simp] theorem rdIdxOf_encodeR : rdIdxOf (encodeR rd rs rt shamt funct) = regIdx rd := by
  apply BitVec.eq_of_getLsbD_eq
  intro i hi
  simp only [rdIdxOf, encodeR, BitVec.getLsbD_extractLsb', BitVec.getLsbD_append]
  interval_cases i <;> simp [regField_bit]

@[simp] theorem rsIdxOf_encodeI : rsIdxOf (encodeI op rs rt imm) = regIdx rs := by
  apply BitVec.eq_of_getLsbD_eq
  intro i hi
  simp only [rsIdxOf, encodeI, BitVec.getLsbD_extractLsb', BitVec.getLsbD_append]
  interval_cases i <;> simp [regField_bit]

@[simp] theorem rtIdxOf_encodeI : rtIdxOf (encodeI op rs rt imm) = regIdx rt := by
  apply BitVec.eq_of_getLsbD_eq
  intro i hi
  simp only [rtIdxOf, encodeI, BitVec.getLsbD_extractLsb', BitVec.getLsbD_append]
  interval_cases i <;> simp [regField_bit]

@[simp] theorem imm16Field_encodeI : imm16Field (encodeI op rs rt imm) = imm := by
  apply BitVec.eq_of_getLsbD_eq
  intro i hi
  simp only [imm16Field, encodeI, BitVec.getLsbD_extractLsb', BitVec.getLsbD_append]
  simp [hi]

@[simp] theorem immOf_encodeI : immOf (encodeI op rs rt imm) = sext32 imm := by rw [immOf, imm16Field_encodeI]

@[simp] theorem addr26Field_encodeJ : addr26Field (encodeJ op addr26) = addr26 := by
  apply BitVec.eq_of_getLsbD_eq
  intro i hi
  simp only [addr26Field, encodeJ, BitVec.getLsbD_extractLsb', BitVec.getLsbD_append]
  simp [hi]

end Extract

end Sys2Proof
end

