-- ==== Sys2Proof/Laws/Memory.lean ====
section
/-! SUPPORT. The sparse memory: a read after a write, and the canonical form every operation keeps. -/

namespace Sys2Proof.Machine

section Sparse
variable {w : Nat}

/-- A canonical list from `lo` on reads as unlisted below `lo`. -/
theorem sparseGet_below {hi lo : Nat} {m : Sparse w} (h : sparseWf hi lo m = true) {a : Nat} (ha : a < lo) :
    sparseGet m a = unlisted := by
  induction m generalizing lo with
  | nil => rfl
  | cons e rest ih =>
    obtain ⟨k, x⟩ := e
    simp only [sparseWf, Bool.and_eq_true, decide_eq_true_eq] at h
    have hk : k ≠ a := by omega
    simp only [sparseGet, hk, if_false]
    exact ih h.2 (by omega)

/-- Canonical form is kept when the lower bound drops. -/
theorem sparseWf_lower {hi lo lo' : Nat} {m : Sparse w} (h : sparseWf hi lo m = true) (hl : lo' ≤ lo) :
    sparseWf hi lo' m = true := by
  cases m with
  | nil => rfl
  | cons e rest =>
    obtain ⟨k, x⟩ := e
    simp only [sparseWf, Bool.and_eq_true, decide_eq_true_eq] at h ⊢
    exact ⟨⟨⟨by omega, h.1.1.2⟩, h.1.2⟩, h.2⟩

theorem sparseGet_cons_self (a : Nat) (v : BitVec w) {rest : Sparse w} (h : sparseGet rest a = unlisted) :
    sparseGet (sparseCons a v rest) a = v := by
  unfold sparseCons
  split
  · next hv => rw [hv, h]
  · simp [sparseGet]

theorem sparseGet_cons_ne {a b : Nat} (v : BitVec w) (rest : Sparse w) (h : a ≠ b) :
    sparseGet (sparseCons a v rest) b = sparseGet rest b := by
  unfold sparseCons
  split
  · rfl
  · simp [sparseGet, h]

theorem sparseWf_cons {hi lo a : Nat} (v : BitVec w) {rest : Sparse w} (hlo : lo ≤ a) (hhi : a < hi)
    (h : sparseWf hi (a + 1) rest = true) : sparseWf hi lo (sparseCons a v rest) = true := by
  unfold sparseCons
  split
  · exact sparseWf_lower h (by omega)
  · next hv => simp [sparseWf, hlo, hhi, hv, h]

/-- A read after a write: the value written at its address, every other address as before. -/
theorem sparseGet_set {hi lo : Nat} {m : Sparse w} (h : sparseWf hi lo m = true) (a b : Nat) (v : BitVec w) :
    sparseGet (sparseSet m a v) b = if b = a then v else sparseGet m b := by
  induction m generalizing lo with
  | nil =>
    by_cases hb : b = a
    · subst hb; simp [sparseSet, sparseGet_cons_self b v (rest := []) rfl]
    · simp [sparseSet, sparseGet_cons_ne v [] (Ne.symm hb), hb]
  | cons e rest ih =>
    obtain ⟨k, x⟩ := e
    have hw := h
    simp only [sparseWf, Bool.and_eq_true, decide_eq_true_eq] at h
    unfold sparseSet
    split
    · next hlt =>
      by_cases hb : b = a
      · subst hb
        have : sparseWf hi k ((k, x) :: rest) = true := by simp [sparseWf, h.1.1.2, h.1.2, h.2]
        simp [sparseGet_cons_self b v (sparseGet_below this hlt)]
      · rw [sparseGet_cons_ne _ _ (Ne.symm hb)]; simp [hb]
    · split
      · next _ heq =>
        subst heq
        by_cases hb : b = a
        · subst hb; simp [sparseGet_cons_self b v (sparseGet_below h.2 (Nat.lt_succ_self b))]
        · rw [sparseGet_cons_ne _ _ (Ne.symm hb)]; simp [hb, sparseGet, Ne.symm hb]
      · next _ hne =>
        have := ih h.2
        by_cases hb : b = a
        · subst hb; simp [sparseGet, this, Ne.symm hne]
        · simp [sparseGet, this, hb]

/-- A write inside the memory keeps the canonical form. -/
theorem sparseWf_set {hi lo : Nat} {m : Sparse w} (h : sparseWf hi lo m = true) {a : Nat} (hlo : lo ≤ a) (hhi : a < hi)
    (v : BitVec w) : sparseWf hi lo (sparseSet m a v) = true := by
  induction m generalizing lo with
  | nil => exact sparseWf_cons v hlo hhi rfl
  | cons e rest ih =>
    obtain ⟨k, x⟩ := e
    simp only [sparseWf, Bool.and_eq_true, decide_eq_true_eq] at h
    unfold sparseSet
    split
    · exact sparseWf_cons v hlo hhi (by simp [sparseWf, h.1.1.2, h.1.2, h.2]; omega)
    · split
      · next heq => subst heq; exact sparseWf_cons v hlo hhi h.2
      · have := ih h.2 (by omega)
        simp only [sparseWf, Bool.and_eq_true, decide_eq_true_eq]
        exact ⟨h.1, this⟩

end Sparse

/-! ### The data memory -/

/-- The error wire says: misaligned, or at or past DM_BYTES. -/
theorem dmError_iff (addr : Word) : dmError addr = true ↔ addr.toNat % 4 ≠ 0 ∨ 4096 ≤ addr.toNat := by
  have : (addr.extractLsb' 0 2 = 0#2) ↔ addr.toNat % 4 = 0 := by
    rw [← BitVec.toNat_inj]; simp [BitVec.extractLsb'_toNat]
  simp only [dmError, Bool.or_eq_true, decide_eq_true_eq, ne_eq, this]
  rfl

theorem dmError_false_iff (addr : Word) : dmError addr = false ↔ addr.toNat % 4 = 0 ∧ addr.toNat < 4096 := by
  rw [← Bool.not_eq_true, dmError_iff]; omega

theorem memRead_of_error {m : Memory} {addr : Word} (h : dmError addr = true) : memRead m addr = (0#32, true) := by
  simp [memRead, h]

theorem memRead_of_ok {m : Memory} {addr : Word} (h : dmError addr = false) :
    memRead m addr = (dmWord m addr.toNat, false) := by simp [memRead, h]

@[simp] theorem memRead_error (m : Memory) (addr : Word) : (memRead m addr).2 = dmError addr := by
  unfold memRead; split <;> simp_all

/-- One lane of a masked write keeps the canonical form. -/
theorem writeLane_wf {m : Memory} (h : m.wf = true) (a i : Nat) (ha : a + i < 4096) (v : Word) (be : BitVec 4) :
    Memory.wf (writeLane a v be m i) = true := by
  unfold writeLane
  split
  · exact sparseWf_set h (Nat.zero_le _) ha _
  · exact h

/-- A masked write inside the array keeps the canonical form. -/
theorem writeLanes_wf {m : Memory} (h : m.wf = true) {a : Nat} (ha : a + 3 < 4096) (v : Word) (be : BitVec 4) :
    Memory.wf (writeLanes m a v be) = true := by
  simp only [writeLanes, List.foldl]
  exact writeLane_wf (writeLane_wf (writeLane_wf (writeLane_wf h _ _ (by omega) _ _) _ _ (by omega) _ _) _ _ (by omega) _ _)
    _ _ (by omega) _ _

/-- Every data-memory write keeps the canonical form, whatever its inputs. -/
theorem memWrite_wf {m : Memory} (h : m.wf = true) (we clk : Bool) (addr v : Word) (be : BitVec 4) :
    Memory.wf (memWrite m we clk addr v be).1 = true := by
  simp only [memWrite]
  split
  · next hc =>
    simp only [Bool.and_eq_true, Bool.not_eq_true'] at hc
    have := (dmError_false_iff addr).1 hc.2
    exact writeLanes_wf h (by omega) v be
  · exact h

theorem dmNext_wf {m : Memory} (h : m.wf = true) (M : ExMem) : Memory.wf (dmNext m M) = true := memWrite_wf h _ _ _ _ _

/-- A byte after one lane's write. -/
theorem dmByte_writeLane {m : Memory} (h : m.wf = true) (a i x : Nat) (v : Word) (be : BitVec 4) :
    dmByte (writeLane a v be m i) x = if be.getMsbD i = true ∧ x = a + i then laneByte v i else dmByte m x := by
  unfold writeLane
  split
  · next hb => simp [dmByte, sparseGet_set h, hb]
  · next hb => simp [hb]

/-- A byte after a masked write: the lane's byte where its enable is 1, else as before. -/
theorem dmByte_writeLanes {m : Memory} (h : m.wf = true) {a : Nat} (ha : a + 3 < 4096) (x : Nat) (v : Word) (be : BitVec 4) :
    dmByte (writeLanes m a v be) x =
      if x < a ∨ a + 4 ≤ x then dmByte m x
      else if be.getMsbD (x - a) then laneByte v (x - a) else dmByte m x := by
  simp only [writeLanes, List.foldl]
  have h0 := writeLane_wf h a 0 (by omega) v be
  have h1 := writeLane_wf h0 a 1 (by omega) v be
  have h2 := writeLane_wf h1 a 2 (by omega) v be
  rw [dmByte_writeLane h2, dmByte_writeLane h1, dmByte_writeLane h0, dmByte_writeLane h]
  by_cases hx : x < a ∨ a + 4 ≤ x
  · rw [if_pos hx]
    rw [if_neg (by omega), if_neg (by omega), if_neg (by omega), if_neg (by omega)]
  · rw [if_neg hx]
    have : x - a = 0 ∨ x - a = 1 ∨ x - a = 2 ∨ x - a = 3 := by omega
    rcases this with e | e | e | e <;> rw [e]
    · rw [if_neg (by omega), if_neg (by omega), if_neg (by omega)]
      have : x = a + 0 := by omega
      simp [this]
    · rw [if_neg (by omega), if_neg (by omega)]
      have : x = a + 1 := by omega
      simp [this]
    · rw [if_neg (by omega)]
      have : x = a + 2 := by omega
      simp [this]
    · have : x = a + 3 := by omega
      simp [this]

/-- What the MEM stage leaves in memory: nothing changes without a store or on an error. -/
theorem dmNext_of_idle {m : Memory} {M : ExMem} (h : M.mem.memWrite = false ∨ dmError M.aluResult = true) :
    dmNext m M = m := by
  simp only [dmNext, memWrite, gateAnd]
  rcases h with h | h <;> simp [h]

/-- ... and a store without an error writes its four bytes. -/
theorem dmNext_of_store {m : Memory} {M : ExMem} (h : M.mem.memWrite = true) (he : dmError M.aluResult = false) :
    dmNext m M = writeLanes m M.aluResult.toNat M.writeData storeEnables := by
  simp [dmNext, memWrite, gateAnd, h, he]

/-- Byte `i` of a word, most significant first. -/
theorem laneByte_eq_shift (v : Word) (i : Nat) : laneByte v i = (v >>> (24 - 8 * i)).setWidth 8 := by
  apply BitVec.eq_of_getLsbD_eq
  intro j hj
  simp [laneByte, hj]

/-- A byte after the MEM stage: the store's byte inside a good store, else as before. -/
theorem dmByte_dmNext {m : Memory} (hm : m.wf = true) (M : ExMem) (a : Nat) :
    dmByte (dmNext m M) a =
      if M.mem.memWrite = true ∧ dmError M.aluResult = false ∧ M.aluResult.toNat ≤ a ∧ a < M.aluResult.toNat + 4 then
        laneByte M.writeData (a - M.aluResult.toNat)
      else dmByte m a := by
  by_cases h : M.mem.memWrite = true ∧ dmError M.aluResult = false
  · have he := (dmError_false_iff _).1 h.2
    rw [dmNext_of_store h.1 h.2, dmByte_writeLanes hm (by omega)]
    by_cases ha : M.aluResult.toNat ≤ a ∧ a < M.aluResult.toNat + 4
    · have hb := (show ∀ i < 4, storeEnables.getMsbD i = true by decide) (a - M.aluResult.toNat) (by omega)
      rw [if_neg (by omega), hb, if_pos rfl, if_pos ⟨h.1, h.2, ha⟩]
    · rw [if_pos (by omega), if_neg (by tauto)]
  · rw [dmNext_of_idle (by cases h1 : M.mem.memWrite <;> simp_all), if_neg (by tauto)]

/-- The four lanes of a word, put back together. -/
theorem laneBytes_append (v : Word) : laneByte v 0 ++ laneByte v 1 ++ laneByte v 2 ++ laneByte v 3 = v := by
  apply BitVec.eq_of_getLsbD_eq
  intro i hi
  simp only [laneByte, BitVec.getLsbD_append, BitVec.getLsbD_extractLsb']
  repeat' split
  all_goals rw [decide_eq_true (by omega), Bool.true_and]; congr 1; omega

/-! ### The instruction memory -/

theorem imemWrite_wf {m : Imem} (h : imemWf m = true) (i : Nat) (v : Word) : imemWf (imemWrite m i v) = true := by
  unfold imemWrite
  split
  · next hi => exact sparseWf_set h (Nat.zero_le _) hi v
  · exact h

theorem imemRead_write {m : Imem} (h : imemWf m = true) (i j : Nat) (v : Word) :
    imemRead (imemWrite m i v) j = if j = i ∧ i < 256 then v else imemRead m j := by
  unfold imemWrite
  split
  · next hi => simp [imemRead, sparseGet_set h, show i < 256 from hi]
  · next hi => simp [show ¬ i < 256 from hi]

end Sys2Proof.Machine
end

