-- ==== Sys2Proof/Laws/Launch.lean ====
section
/-! SUPPORT. The host's loading of the memories keeps their canonical form (60_exceptions.md R142). -/

namespace Sys2Proof.Machine

theorem loadProgram_wf (ws : List Word) {m : Imem} (h : imemWf m = true) (i : Nat) : imemWf (loadProgram i ws m) = true := by
  induction ws generalizing m i with
  | nil => exact h
  | cons w ws ih => exact ih (imemWrite_wf h i w) (i + 1)

/-- One byte of DM_INIT; a byte past the array is dropped. -/
theorem loadByte_wf {m : Memory} (h : m.wf = true) (a : Nat) (b : Byte) :
    Memory.wf (if a < Config.dmBytes then sparseSet m a b else m) = true := by
  split
  · next ha => exact sparseWf_set h (Nat.zero_le _) ha b
  · exact h

theorem loadData_wf (bs : List Byte) {m : Memory} (h : m.wf = true) (a : Nat) : Memory.wf (loadData a bs m) = true := by
  induction bs generalizing m a with
  | nil => exact h
  | cons b bs ih => exact ih (loadByte_wf h a b) (a + 1)

end Sys2Proof.Machine
end

