-- ==== Sys2Proof/Laws/PerInstr.lean ====
section
/-! SUPPORT. Facts about every instruction as syntax, one lemma per constructor. -/

namespace Sys2Proof.Laws

open Sys2Proof.Machine

/-! ### The encoder's word lies in its instruction's row of the opcode map (30_encoding.md R62) -/

theorem encodeR_masked (rd rs rt : Nat) (shamt : BitVec 5) (funct : BitVec 6) :
    encodeR rd rs rt shamt funct &&& 0xFC00003F#32 = funct.zeroExtend 32 := by
  apply BitVec.eq_of_getLsbD_eq
  intro i hi
  simp only [encodeR, opRType, BitVec.getLsbD_and, BitVec.getLsbD_append]
  interval_cases i <;> simp

theorem encodeI_masked (op : BitVec 6) (rs rt : Nat) (imm : BitVec 16) :
    encodeI op rs rt imm &&& 0xFC000000#32 = op ++ 0#26 := by
  apply BitVec.eq_of_getLsbD_eq
  intro i hi
  simp only [encodeI, BitVec.getLsbD_and, BitVec.getLsbD_append]
  interval_cases i <;> simp

theorem encodeJ_masked (op : BitVec 6) (addr26 : BitVec 26) :
    encodeJ op addr26 &&& 0xFC000000#32 = op ++ 0#26 := by
  apply BitVec.eq_of_getLsbD_eq
  intro i hi
  simp only [encodeJ, BitVec.getLsbD_and, BitVec.getLsbD_append]
  interval_cases i <;> simp

/-- The word an instruction encodes to has its row's match under its row's mask. -/
def EncodingRow.Statement (i : Instr) : Prop := encode i &&& opcodeMask i.mnemonic = opcodeMatch i.mnemonic

theorem EncodingRow.add (rd rs rt : Nat) (shamt : BitVec 5) : EncodingRow.Statement (.add rd rs rt shamt) :=
  encodeR_masked rd rs rt shamt functAdd
theorem EncodingRow.sub (rd rs rt : Nat) (shamt : BitVec 5) : EncodingRow.Statement (.sub rd rs rt shamt) :=
  encodeR_masked rd rs rt shamt functSub
theorem EncodingRow.and (rd rs rt : Nat) (shamt : BitVec 5) : EncodingRow.Statement (.and rd rs rt shamt) :=
  encodeR_masked rd rs rt shamt functAnd
theorem EncodingRow.or (rd rs rt : Nat) (shamt : BitVec 5) : EncodingRow.Statement (.or rd rs rt shamt) :=
  encodeR_masked rd rs rt shamt functOr
theorem EncodingRow.slt (rd rs rt : Nat) (shamt : BitVec 5) : EncodingRow.Statement (.slt rd rs rt shamt) :=
  encodeR_masked rd rs rt shamt functSlt
theorem EncodingRow.addi (rt rs : Nat) (imm : BitVec 16) : EncodingRow.Statement (.addi rt rs imm) :=
  encodeI_masked opAddi rs rt imm
theorem EncodingRow.lw (rt : Nat) (imm : BitVec 16) (rs : Nat) : EncodingRow.Statement (.lw rt imm rs) :=
  encodeI_masked opLw rs rt imm
theorem EncodingRow.sw (rt : Nat) (imm : BitVec 16) (rs : Nat) : EncodingRow.Statement (.sw rt imm rs) :=
  encodeI_masked opSw rs rt imm
theorem EncodingRow.beq (rs rt : Nat) (off : BitVec 16) : EncodingRow.Statement (.beq rs rt off) :=
  encodeI_masked opBeq rs rt off
theorem EncodingRow.j (addr26 : BitVec 26) : EncodingRow.Statement (.j addr26) := encodeJ_masked opJ addr26
theorem EncodingRow.nop : EncodingRow.Statement .nop := rfl

end Sys2Proof.Laws
end

