-- ==== Sys2Proof/Laws/State.lean ====
section
/-! SUPPORT. What each field of a state is after the clock edge, after a flush, and after a fetch, so that no proof unfolds
a record update. -/

namespace Sys2Proof.Machine

section Commit
variable (ctl : Ctl) (w : Word) (s : State)

@[simp] theorem commit_regs : (commit ctl w s).regs = wbRegs s.memWb s.regs := rfl
@[simp] theorem commit_pc : (commit ctl w s).pc = s.nextPc := rfl
@[simp] theorem commit_exMem : (commit ctl w s).exMem = exMemNext exFlush s.idEx := rfl
@[simp] theorem commit_memWb : (commit ctl w s).memWb = memWbNext s.dm s.exMem := rfl
@[simp] theorem commit_imem : (commit ctl w s).imem = s.imem := rfl
@[simp] theorem commit_dm : (commit ctl w s).dm = dmNext s.dm s.exMem := rfl
@[simp] theorem commit_cycle : (commit ctl w s).cycle = s.cycle + 1 := rfl
@[simp] theorem commit_dmErrorSeen : (commit ctl w s).dmErrorSeen = (s.dmErrorSeen || dmErrorNow s.dm s.exMem) := rfl

/-- IF/ID after the edge: every write enable is 1, so only the flush decides. -/
theorem commit_ifId :
    (commit ctl w s).ifId = if s.flush then { instr := 0#32, pcPlus4 := pcPlus4 s.pc } else s.fetched := rfl

/-- ID/EX after the edge: the bubble on a flush, else what ID decoded. -/
theorem commit_idEx :
    (commit ctl w s).idEx = if s.flush then idExBubble s.ifId.pcPlus4 else idStage ctl w s.regs s.ifId.pcPlus4 := rfl

theorem commit_idEx_of_flush (h : s.flush = true) : (commit ctl w s).idEx = idExBubble s.ifId.pcPlus4 := by
  simp [commit_idEx, h]

theorem commit_idEx_of_no_flush (h : s.flush = false) :
    (commit ctl w s).idEx = idStage ctl w s.regs s.ifId.pcPlus4 := by simp [commit_idEx, h]

theorem commit_ifId_of_flush (h : s.flush = true) :
    (commit ctl w s).ifId = { instr := 0#32, pcPlus4 := pcPlus4 s.pc } := by simp [commit_ifId, h]

theorem commit_ifId_of_no_flush (h : s.flush = false) : (commit ctl w s).ifId = s.fetched := by simp [commit_ifId, h]

end Commit

section IdStage
variable (ctl : Ctl) (w : Word) (r : Regs) (pc4 : Word)

@[simp] theorem idStage_ctl : (idStage ctl w r pc4).ctl = ctl := rfl
@[simp] theorem idStage_rsData : (idStage ctl w r pc4).rsData = regRead r (rsIdxOf w) := rfl
@[simp] theorem idStage_rtData : (idStage ctl w r pc4).rtData = regRead r (rtIdxOf w) := rfl
@[simp] theorem idStage_rsIdx : (idStage ctl w r pc4).rsIdx = rsIdxOf w := rfl
@[simp] theorem idStage_rtIdx : (idStage ctl w r pc4).rtIdx = rtIdxOf w := rfl
@[simp] theorem idStage_rdIdx : (idStage ctl w r pc4).rdIdx = rdIdxOf w := rfl
@[simp] theorem idStage_imm : (idStage ctl w r pc4).imm = immOf w := rfl
@[simp] theorem idStage_pcPlus4 : (idStage ctl w r pc4).pcPlus4 = pc4 := rfl
@[simp] theorem idStage_addr26 : (idStage ctl w r pc4).addr26 = addr26Field w := rfl

/-- The bubble, with the configuration point at its default. -/
theorem idExBubble_eq : idExBubble pc4 = { IdEx.zero with pcPlus4 := pc4 } := rfl
@[simp] theorem idExBubble_ctl : (idExBubble pc4).ctl = ctlNop := rfl
@[simp] theorem idExBubble_pcPlus4 : (idExBubble pc4).pcPlus4 = pc4 := rfl

end IdStage

section ExStage
variable (E : IdEx)

@[simp] theorem exMemNext_memRead : (exMemNext exFlush E).mem.memRead = E.ctl.memRead := rfl
@[simp] theorem exMemNext_memWrite : (exMemNext exFlush E).mem.memWrite = E.ctl.memWrite := rfl
@[simp] theorem exMemNext_regWrite : (exMemNext exFlush E).wb.regWrite = E.ctl.regWrite := rfl
@[simp] theorem exMemNext_dataSrcToReg : (exMemNext exFlush E).wb.dataSrcToReg = E.ctl.dataSrcToReg := rfl
@[simp] theorem exMemNext_aluResult : (exMemNext exFlush E).aluResult = exAluResult E := rfl
@[simp] theorem exMemNext_writeData : (exMemNext exFlush E).writeData = E.rtData := rfl
@[simp] theorem exMemNext_writeRegIdx : (exMemNext exFlush E).writeRegIdx = exDest E := rfl

end ExStage

section MemStage
variable (m : Memory) (M : ExMem)

@[simp] theorem memWbNext_wb : (memWbNext m M).wb = M.wb := rfl
@[simp] theorem memWbNext_readData : (memWbNext m M).readData = (memRead m M.aluResult).1 := rfl
@[simp] theorem memWbNext_aluResult : (memWbNext m M).aluResult = M.aluResult := rfl
@[simp] theorem memWbNext_writeRegIdx : (memWbNext m M).writeRegIdx = M.writeRegIdx := rfl

end MemStage

section Fetch
variable (w : Word) (s : State)

@[simp] theorem fetched_instr : s.fetched.instr = imemRead s.imem (fetchIndex s.pc) := rfl
@[simp] theorem fetched_pcPlus4 : s.fetched.pcPlus4 = pcPlus4 s.pc := rfl
@[simp] theorem placeFetched_ifId : (placeFetched w s).ifId = { instr := w, pcPlus4 := pcPlus4 s.pc } := rfl
@[simp] theorem placeFetched_pc : (placeFetched w s).pc = pcPlus4 s.pc := rfl
@[simp] theorem placeFetched_idEx : (placeFetched w s).idEx = s.idEx := rfl
@[simp] theorem placeFetched_regs : (placeFetched w s).regs = s.regs := rfl
@[simp] theorem placeFetched_dm : (placeFetched w s).dm = s.dm := rfl

end Fetch

end Sys2Proof.Machine
end

