-- ==== Sys2Proof/Laws/Step.lean ====
section
/-! SUPPORT. What one tick can do, said once: when it answers a next state, which one, and each stage in plain terms. -/

namespace Sys2Proof.Machine

/-! ### The wires -/

theorem exIsZero_iff (E : IdEx) : exIsZero E = true ↔ E.rsData = E.rtData := by
  simp [exIsZero, isZero, BitVec.sub_eq_iff_eq_add]

/-- b0: a branch whose operands are equal. -/
theorem b0_iff (s : State) : s.b0 = true ↔ s.idEx.ctl.branch = true ∧ s.idEx.rsData = s.idEx.rtData := by
  simp [State.b0, branchSelect, gateAnd, gateNot, exFlush, exIsZero_iff]

/-- b1: a jump. -/
theorem b1_eq (s : State) : s.b1 = s.idEx.ctl.jump := by simp [State.b1, jumpSelect, gateAnd, gateNot, exFlush]

/-- The cycle flushes exactly when a taken branch, and no jump, is in EX. -/
theorem flush_iff (s : State) :
    s.flush = true ↔ s.idEx.ctl.branch = true ∧ s.idEx.rsData = s.idEx.rtData ∧ s.idEx.ctl.jump = false := by
  simp [State.flush, branchTaken, gateAnd, gateNot, b0_iff, b1_eq, and_assoc]

theorem flush_of_no_branch {s : State} (h : s.idEx.ctl.branch = false) : s.flush = false := by
  rw [← Bool.not_eq_true, flush_iff, h]; simp

@[simp] theorem pcPlus4_eq (pc : Word) : pcPlus4 pc = pc + 4#32 := adder_false pc 4#32

/-- Where the PC goes when not both selects are set (42_pipeline.md R95). -/
theorem nextPc_eq {s : State} (h : s.bothSelects = false) :
    s.nextPc = if s.flush then branchTarget s.idEx.pcPlus4 s.idEx.imm
      else if s.idEx.ctl.jump then jumpTarget s.idEx.pcPlus4 s.idEx.addr26 else s.pc + 4#32 := by
  have hb := b1_eq s
  simp only [State.bothSelects, gateAnd] at h
  simp only [State.nextPc, pcMux, State.flush, branchTaken, gateAnd, gateNot, select, ← hb, pcPlus4_eq]
  revert h
  cases s.b0 <;> cases s.b1 <;> simp

/-- Both PC selects are set exactly when a branch with equal operands is a jump too. -/
theorem bothSelects_iff (s : State) :
    s.bothSelects = true ↔ s.idEx.ctl.branch = true ∧ s.idEx.rsData = s.idEx.rtData ∧ s.idEx.ctl.jump = true := by
  simp [State.bothSelects, gateAnd, b0_iff, b1_eq, and_assoc]

/-- The jump target as a number (30_encoding.md R61). -/
theorem jumpTarget_toNat (p : Word) (a : BitVec 26) :
    (jumpTarget p a).toNat = p.toNat / 2 ^ 28 * 2 ^ 28 + a.toNat * 4 := by
  have ha := a.isLt
  have hp := p.isLt
  have e : (jumpTarget p a).toNat = ((p.toNat / 2 ^ 28 % 16) <<< 26 ||| a.toNat) <<< 2 ||| 0 := by
    unfold jumpTarget
    erw [BitVec.toNat_append, BitVec.toNat_append, BitVec.extractLsb'_toNat, Nat.shiftRight_eq_div_pow]
    rfl
  rw [e, Nat.or_zero, ← Nat.shiftLeft_add_eq_or_of_lt (by omega), Nat.shiftLeft_eq, Nat.shiftLeft_eq]
  omega

theorem bothSelects_of_exclusive {s : State} (h : s.idEx.ctl.exclusive = true) : s.bothSelects = false := by
  rw [← Bool.not_eq_true]
  simp only [State.bothSelects, gateAnd, Bool.and_eq_true, b0_iff, b1_eq]
  exact fun hc => not_branch_and_jump h ⟨hc.1.1, hc.2⟩

/-- The next word index, short of the wrap. -/
theorem fetchIndex_add_four {pc : Word} (h : fetchIndex pc < 256) : fetchIndex (pc + 4#32) = fetchIndex pc + 1 := by
  simp only [fetchIndex, BitVec.toNat_add, BitVec.toNat_ofNat] at *
  omega

/-! ### Registers -/

/-- Register `k` after write-back (42_pipeline.md R108). -/
theorem regRead_wbRegs (W : MemWb) (r : Regs) (k : BitVec 2) :
    regRead (wbRegs W r) k = if W.wb.regWrite = true ∧ W.writeRegIdx = k then wbData W else regRead r k := by
  have hk : regRead (wbRegs W r) k = wbReg W r k := by
    have : k = 0 ∨ k = 1 ∨ k = 2 ∨ k = 3 := by
      have := k.isLt
      rcases k with ⟨⟨v, hv⟩⟩
      simp only [← BitVec.toNat_inj]
      simp; omega
    rcases this with rfl | rfl | rfl | rfl <;> rfl
  rw [hk, wbReg, loadEnable, select]
  simp [gateAnd]

theorem reg_commit (ctl : Ctl) (w : Word) (s : State) (k : BitVec 2) :
    (commit ctl w s).reg k =
      if s.memWb.wb.regWrite = true ∧ s.memWb.writeRegIdx = k then wbData s.memWb else s.reg k := by
  simp only [State.reg, commit_regs, regRead_wbRegs]

/-! ### One tick -/

/-- A tick answers a next state exactly when no model-only outcome applies, and then it is the clock edge's. -/
theorem tick_next_iff {ctl : Ctl} {w : Word} {s t : State} :
    tick ctl w s = .next t ↔ edgeFault s = none ∧ t = commit ctl w s := by
  unfold tick
  cases h : edgeFault s <;> simp [eq_comm]

theorem tick_of_none {ctl : Ctl} {w : Word} {s : State} (h : edgeFault s = none) : tick ctl w s = .next (commit ctl w s) :=
  tick_next_iff.2 ⟨h, rfl⟩

/-- When no model-only outcome applies. -/
theorem edgeFault_none_iff (s : State) : edgeFault s = none ↔ s.bothSelects = false ∧ s.fetchFails = false := by
  unfold edgeFault
  cases s.bothSelects <;> cases s.fetchFails <;> simp

theorem fetchFails_false_iff (s : State) : s.fetchFails = false ↔ s.flush = true ∨ fetchIndex s.pc < 256 := by
  simp only [State.fetchFails, Bool.and_eq_false_iff, Bool.not_eq_false', decide_eq_false_iff_not]
  rw [show Config.imemWords = 256 from rfl, Nat.not_le]

/-- Every meaning is the tick of its instruction's bundle and word. -/
theorem exec_eq_tick (i : Instr) (s : State) : exec i s = tick (ctlOf i) (encode i) s := by cases i <;> rfl

/-- The step is the tick of the word in IF/ID and its decoded bundle, whether or not the word has a row. -/
theorem step_eq_tick (s : State) : step s = tick (decodeCtl s.ifId.instr) s.ifId.instr s := by
  unfold step
  split
  · next i h => rw [exec_eq_tick, encode_of_decode h, decodeCtl_of_ok h]
  · next e h => rw [issueWithoutRow, decodeCtl_of_error h]

theorem exec_next_iff {i : Instr} {s t : State} :
    exec i s = .next t ↔ edgeFault s = none ∧ t = commit (ctlOf i) (encode i) s := by rw [exec_eq_tick, tick_next_iff]

theorem step_next_iff {s t : State} :
    step s = .next t ↔ edgeFault s = none ∧ t = commit (decodeCtl s.ifId.instr) s.ifId.instr s := by
  rw [step_eq_tick, tick_next_iff]

end Sys2Proof.Machine
end

