-- ==== Sys2Proof/Laws/Retire.lean ====
section
/-! SUPPORT. What the four ticks of one instruction's life do, said once for every instruction (42_pipeline.md R93): its
bundle and operands enter ID/EX, its result EX/MEM, its access and result MEM/WB, its register write the register file. -/

namespace Sys2Proof.Machine

variable {i : Instr} {s d e m w : State}

/-- Each tick of a life is the clock edge of the state before it. -/
theorem Life.edges (L : Life i s d e m w) :
    d = commit (ctlOf i) (encode i) s ∧ e = commit (decodeCtl d.ifId.instr) d.ifId.instr d ∧
      m = commit (decodeCtl e.ifId.instr) e.ifId.instr e ∧ w = commit (decodeCtl m.ifId.instr) m.ifId.instr m :=
  ⟨(exec_next_iff.1 L.decoded).2, (step_next_iff.1 L.executed).2, (step_next_iff.1 L.accessed).2,
    (step_next_iff.1 L.retired).2⟩

/-- After its ID tick ID/EX holds the instruction's bundle and operands. -/
theorem Life.idEx_eq (L : Life i s d e m w) : d.idEx = idStage (ctlOf i) (encode i) s.regs s.ifId.pcPlus4 := by
  rw [L.edges.1, commit_idEx_of_no_flush _ _ _ L.unsquashed]

/-- After its EX tick EX/MEM holds its result. -/
theorem Life.exMem_eq (L : Life i s d e m w) : e.exMem = exMemNext exFlush d.idEx := by rw [L.edges.2.1]; rfl

/-- After its MEM tick MEM/WB holds the memory data and the result ... -/
theorem Life.memWb_eq (L : Life i s d e m w) : m.memWb = memWbNext e.dm e.exMem := by rw [L.edges.2.2.1]; rfl

/-- ... and the data memory its store. -/
theorem Life.dm_eq (L : Life i s d e m w) : m.dm = dmNext e.dm e.exMem := by rw [L.edges.2.2.1]; rfl

theorem Life.dmErrorSeen_eq (L : Life i s d e m w) : m.dmErrorSeen = (e.dmErrorSeen || dmErrorNow e.dm e.exMem) := by
  rw [L.edges.2.2.1]; rfl

/-- Its EX tick moves the PC. -/
theorem Life.pc_eq (L : Life i s d e m w) : e.pc = d.nextPc := by rw [L.edges.2.1]; rfl

/-- At its WB tick register `k` takes its result if `k` is its destination, and is otherwise as before that tick. -/
theorem Life.reg_eq (L : Life i s d e m w) (k : BitVec 2) :
    w.reg k =
      if (ctlOf i).regWrite = true ∧ exDest d.idEx = k then
        select (exAluResult d.idEx) (memRead e.dm (exAluResult d.idEx)).1 (ctlOf i).dataSrcToReg
      else m.reg k := by
  have h := reg_commit (decodeCtl m.ifId.instr) m.ifId.instr m k
  rw [← L.edges.2.2.2] at h
  rw [h, L.memWb_eq, L.exMem_eq, L.idEx_eq]
  rfl

/-! ### When ticks complete -/

/-- A tick with no transfer of control in EX and its fetch in range answers the clock edge's state. -/
theorem edgeFault_none_of_clear {s : State} (_hb : s.idEx.ctl.branch = false) (hj : s.idEx.ctl.jump = false)
    (hr : fetchIndex s.pc < 256) : edgeFault s = none := by
  rw [edgeFault_none_iff, fetchFails_false_iff]
  refine ⟨?_, .inr hr⟩
  simp [State.bothSelects, gateAnd, b1_eq, hj]

/-- With no transfer of control in EX the PC moves to the next word. -/
theorem nextPc_of_clear {s : State} (hb : s.idEx.ctl.branch = false) (hj : s.idEx.ctl.jump = false) :
    s.nextPc = s.pc + 4#32 := by
  rw [nextPc_eq (by simp [State.bothSelects, gateAnd, b1_eq, hj]), flush_of_no_branch hb, hj]
  rfl

/-- Two ticks from a clear state: the instruction's ID tick, and the state it leaves. -/
theorem ClearForTwo.exec_eq (C : ClearForTwo s) (i : Instr) :
    exec i s = .next (commit (ctlOf i) (encode i) s) ∧ s.flush = false ∧
      (commit (ctlOf i) (encode i) s).pc = s.pc + 4#32 ∧ fetchIndex (s.pc + 4#32) < 256 := by
  have hr : fetchIndex s.pc + 1 < 256 := C.inRange
  refine ⟨?_, flush_of_no_branch C.noBranch, nextPc_of_clear C.noBranch C.noJump, ?_⟩
  · rw [exec_eq_tick, tick_of_none (edgeFault_none_of_clear C.noBranch C.noJump (by omega))]
  · rw [fetchIndex_add_four (by omega)]; omega

/-- Four ticks from a clear state complete the life of any instruction that is no transfer of control. -/
theorem ClearForFour.life (C : ClearForFour s) (i : Instr) (hb : (ctlOf i).branch = false) (hj : (ctlOf i).jump = false) :
    ∃ d e m w, exec i s = .next d ∧ Life i s d e m w := by
  have hr : fetchIndex s.pc + 3 < 256 := C.inRange
  have hf := flush_of_no_branch C.noBranch
  have hs := tick_of_none (ctl := ctlOf i) (w := encode i) (edgeFault_none_of_clear C.noBranch C.noJump (by omega))
  generalize hd : commit (ctlOf i) (encode i) s = d at hs
  have hdE : d.idEx = idStage (ctlOf i) (encode i) s.regs s.ifId.pcPlus4 := by
    rw [← hd, commit_idEx_of_no_flush _ _ _ hf]
  have hdP : d.pc = s.pc + 4#32 := by rw [← hd]; exact nextPc_of_clear C.noBranch C.noJump
  have hdI : d.ifId.instr = imemRead s.imem (fetchIndex s.pc) := by rw [← hd, commit_ifId_of_no_flush _ _ _ hf]; rfl
  have d1 := fetchIndex_add_four (pc := s.pc) (by omega)
  have hdb : d.idEx.ctl.branch = false := by rw [hdE]; exact hb
  have hdj : d.idEx.ctl.jump = false := by rw [hdE]; exact hj
  have ht := tick_of_none (ctl := decodeCtl d.ifId.instr) (w := d.ifId.instr)
    (edgeFault_none_of_clear hdb hdj (by rw [hdP]; omega))
  generalize he : commit (decodeCtl d.ifId.instr) d.ifId.instr d = e at ht
  have heE : e.idEx = idStage (decodeCtl d.ifId.instr) d.ifId.instr d.regs d.ifId.pcPlus4 := by
    rw [← he, commit_idEx_of_no_flush _ _ _ (flush_of_no_branch hdb)]
  have heP : e.pc = s.pc + 4#32 + 4#32 := by rw [← he, ← hdP]; exact nextPc_of_clear hdb hdj
  have heb : e.idEx.ctl.branch = false := by rw [heE, hdI]; exact C.nextNoBranch
  have hej : e.idEx.ctl.jump = false := by rw [heE, hdI]; exact C.nextNoJump
  have d2 := fetchIndex_add_four (pc := s.pc + 4#32) (by omega)
  have hu := tick_of_none (ctl := decodeCtl e.ifId.instr) (w := e.ifId.instr)
    (edgeFault_none_of_clear heb hej (by rw [heP]; omega))
  generalize hm : commit (decodeCtl e.ifId.instr) e.ifId.instr e = m at hu
  have hmP : m.pc = s.pc + 4#32 + 4#32 + 4#32 := by rw [← hm, ← heP]; exact nextPc_of_clear heb hej
  have hmx : m.idEx.ctl.exclusive = true := by
    rw [← hm, commit_idEx_of_no_flush _ _ _ (flush_of_no_branch heb)]; exact decodeCtl_exclusive _
  have d3 := fetchIndex_add_four (pc := s.pc + 4#32 + 4#32) (by omega)
  have hv := tick_of_none (ctl := decodeCtl m.ifId.instr) (w := m.ifId.instr)
    ((edgeFault_none_iff m).2 ⟨bothSelects_of_exclusive hmx, (fetchFails_false_iff m).2 (.inr (by rw [hmP]; omega))⟩)
  rw [← step_eq_tick] at ht hu hv
  rw [← exec_eq_tick] at hs
  exact ⟨d, e, m, _, hs, hf, hs, ht, hu, hv⟩

end Sys2Proof.Machine
end

