-- ==== Sys2Proof/Tests/Slice0.lean ====
section
/-! SUPPORT. The author's own tests. Expected values come from 95_test_vectors.md (section named), 30_encoding.md R67, or the
rule named; the witnesses show concrete states that meet the statements' hypotheses. -/

namespace Sys2Proof.Tests

open Machine

/-! ### Small states -/

/-- Launch with four register values and no program. -/
def withRegs (r0 r1 r2 r3 : Word) : State := launch [] #v[r0, r1, r2, r3] []

/-- What ID/EX holds after instruction `i`'s ID tick, the empty bubble if the tick stops. -/
def issued (i : Instr) (s : State) : IdEx :=
  match exec i s with
  | .next t => t.idEx
  | .fault _ => IdEx.zero
  | .refused _ => IdEx.zero

/-- EX/MEM after the instruction's EX tick. -/
def executed (i : Instr) (s : State) : ExMem := exMemNext exFlush (issued i s)

/-- P2 of 95_test_vectors.md after cycle 1: BEQ R1,R1,+2 in EX, A in ID, WRONG at the PC; R1 = 7. -/
def branchInEx : State :=
  { launch [0x10210002, 0x20020001, 0x20030001, 0x20030002] #v[0, 7, 0, 0] [] with
    pc := 8, ifId := { instr := 0x20020001, pcPlus4 := 8 },
    idEx := idStage ctlBeq 0x10210002#32 #v[0, 7, 0, 0] 4#32 }

/-- J 0x10 in EX, as in P5 after cycle 1. -/
def jumpInEx : State :=
  { launch [0x08000004, 0x20010001, 0x20020002] #v[0, 0, 0, 0x55] [] with
    pc := 8, ifId := { instr := 0x20010001, pcPlus4 := 8 }, idEx := idStage ctlJ 0x08000004#32 #v[0, 0, 0, 0x55] 4#32 }

/-- A store of R3 = 30 to address `addr` in MEM. -/
def storeInMem (addr : Word) : State :=
  { withRegs 0 0 0 30 with
    exMem := { mem := { memRead := false, memWrite := true }, wb := { regWrite := false, dataSrcToReg := false },
               aluResult := addr, writeData := 30, writeRegIdx := 3 } }

/-- A write-back of 9 to R1 = 7 in WB while ADD R3,R1,R1 is in ID. -/
def writeInWb : State :=
  { withRegs 0 7 0 0 with
    ifId := { instr := 0x00211820, pcPlus4 := 4 },
    memWb := { wb := { regWrite := true, dataSrcToReg := false }, readData := 0, aluResult := 9, writeRegIdx := 1 } }

/-- A bundle no decoder gives: branch and jump at once, at program counter `pc`. -/
def bothSelected (pc : Word) : State := { State.reset with pc := pc, idEx := { IdEx.zero with ctl := { ctlBeq with jump := true } } }

/-- Reset with the program counter past the instruction memory. -/
def pastProgram : State := { State.reset with pc := 0x400 }

/-- A word with no row in ID. -/
def withoutRow (w : Word) : State := { State.reset with ifId := { instr := w, pcPlus4 := 4 } }

/-! ### WellFormed refuses each ill-formed field -/

theorem test_wf_rd : ∀ i ∈ ([.add 32 0 0 0, .sub 32 0 0 0, .and 32 0 0 0, .or 32 0 0 0, .slt 32 0 0 0] : List Instr),
    ¬ i.WellFormed := by decide
theorem test_wf_rs : ∀ i ∈ ([.add 0 32 0 0, .addi 0 32 0, .lw 0 0 32, .sw 0 0 32, .beq 32 0 0] : List Instr),
    ¬ i.WellFormed := by decide
theorem test_wf_rt : ∀ i ∈ ([.add 0 0 32 0, .addi 32 0 0, .lw 32 0 0, .sw 32 0 0, .beq 0 32 0] : List Instr),
    ¬ i.WellFormed := by decide
theorem test_wf_accepts : ∀ i ∈ ([.add 31 31 31 31, .addi 31 0 0xFFFF, .lw 31 0 31, .sw 0 0 31, .beq 31 31 0, .j 0x3FFFFFF, .nop] :
    List Instr), i.WellFormed := by decide

/-! ### Decoding (30_encoding.md R55 to R57, R62, R67; 95_test_vectors.md 2.3, 2.4), the words written field by field -/

/-- opcode 000000, rs 00001, rt 00010, rd 00011, shamt, funct. -/
theorem test_decode_rtype :
    decode 0b000000_00001_00010_00011_00000_100000#32 = .ok (.add 3 1 2 0) ∧
    decode 0b000000_00001_00010_00011_00000_100010#32 = .ok (.sub 3 1 2 0) ∧
    decode 0b000000_00001_00010_00011_00000_100100#32 = .ok (.and 3 1 2 0) ∧
    decode 0b000000_00001_00010_00011_00000_100101#32 = .ok (.or 3 1 2 0) ∧
    decode 0b000000_00001_00010_00011_00000_101010#32 = .ok (.slt 3 1 2 0) := ⟨rfl, rfl, rfl, rfl, rfl⟩
/-- opcode, rs, rt, imm16; J: opcode, addr26. -/
theorem test_decode_itype_jtype :
    decode 0b001000_00000_00001_0000000000001010#32 = .ok (.addi 1 0 10) ∧
    decode 0b100011_00000_00010_0000000001100100#32 = .ok (.lw 2 100 0) ∧
    decode 0b101011_00000_00011_0000000001100100#32 = .ok (.sw 3 100 0) ∧
    decode 0b000100_00001_00001_0000000000000010#32 = .ok (.beq 1 1 2) ∧
    decode 0b000010_00000000000000000000001000#32 = .ok (.j 8) ∧
    decode 0b00000000000000000000000000000000#32 = .ok .nop := ⟨rfl, rfl, rfl, rfl, rfl, rfl⟩
/-- R67's words. -/
theorem test_decode_r67 :
    decode 0x2001000A#32 = .ok (.addi 1 0 10) ∧ decode 0x20020014#32 = .ok (.addi 2 0 20) ∧
    decode 0x00221820#32 = .ok (.add 3 1 2 0) ∧ decode 0xAC030064#32 = .ok (.sw 3 100 0) ∧
    decode 0x8C020064#32 = .ok (.lw 2 100 0) ∧ decode 0x10210002#32 = .ok (.beq 1 1 2) := ⟨rfl, rfl, rfl, rfl, rfl, rfl⟩
/-- 2.3: shamt is ignored by the control decoder; 2.4: fields 5, 6, 7 alias R1, R2, R3. -/
theorem test_decode_shamt_and_alias :
    decode 0x00221860#32 = .ok (.add 3 1 2 1) ∧ decode 0x00A63820#32 = .ok (.add 7 5 6 0) ∧
    rsIdxOf 0x00A63820#32 = 1 ∧ rtIdxOf 0x00A63820#32 = 2 ∧ rdIdxOf 0x00A63820#32 = 3 ∧
    immOf 0x00A63820#32 = 0x00003820#32 := ⟨rfl, rfl, rfl, rfl, rfl, rfl⟩
/-- 2.3: words with no row are rejected by name; NOP is the all-zero word only. -/
theorem test_decode_without_row :
    decode 0x00000021#32 = .error (.illegalFunct 0x21) ∧ decode 0x00221800#32 = .error (.illegalFunct 0) ∧
    decode 0xFC000000#32 = .error (.unusedOpcode 0x3F) ∧ decode 0x00000040#32 = .error (.illegalFunct 0) := ⟨rfl, rfl, rfl, rfl⟩
theorem test_encode_words :
    encode (.add 3 1 2 1) = 0x00221860#32 ∧ encode (.addi 1 0 0xFFFF) = 0x2001FFFF#32 ∧ encode (.lw 2 0xFFFC 1) = 0x8C22FFFC#32 ∧
    encode (.sw 1 0 1) = 0xAC210000#32 ∧ encode (.beq 0 0 0xFFFF) = 0x1000FFFF#32 ∧ encode (.j 12) = 0x0800000C#32 ∧
    encode (.slt 3 1 2 0) = 0x0022182A#32 := ⟨rfl, rfl, rfl, rfl, rfl, rfl, rfl⟩
/-- 2.3: three bundles in full. -/
theorem test_bundles :
    decodeCtl 0x0022182A#32 = ⟨true, false, false, true, false, false, false, false, .slt⟩ ∧
    decodeCtl 0x8C020064#32 = ⟨false, true, true, true, true, false, false, false, .add⟩ ∧
    decodeCtl 0xAC030064#32 = ⟨false, true, false, false, false, true, false, false, .add⟩ ∧
    decodeCtl 0x10210002#32 = ⟨false, false, false, false, false, false, true, false, .sub⟩ ∧
    decodeCtl 0x08000008#32 = ⟨false, false, false, false, false, false, false, true, .and⟩ := ⟨rfl, rfl, rfl, rfl, rfl⟩
theorem test_table_word : decodeTableWord 32 0x00221820 = some (.add 3 1 2 0) ∧ decodeTableWord 32 0x21 = none := ⟨rfl, rfl⟩

/-! ### Cells and registers (2.1) -/

theorem test_cell_commits_phase_zero : cellStep (cellStep ⟨false, false, false⟩ false true) true false = ⟨true, true, true⟩ := rfl
theorem test_cell_no_second_commit : cellStep ⟨false, true, true⟩ true false = ⟨false, true, true⟩ := rfl
/-- A 4-bit register at 5: phase-0 load 0 samples Q, whatever phase 1 offers. -/
theorem test_register_phase_zero_load :
    registerQ (registerCycle (Vector.ofFn fun i => ⟨false, (5#4).getLsbD i.val, false⟩ : CellRegister 4) false 0xA#4 true 0#4) = 5#4 := by
  decide

/-! ### The ALU (2.2) -/

theorem test_alu_row_four :
    compute 0x80000000#32 1#32 false .slt = (1#32, true) ∧ compute 0x80000000#32 1#32 false .sub = (0x7FFFFFFF#32, true) ∧
    compute 0x80000000#32 1#32 false .nor = (0x7FFFFFFE#32, false) ∧ compute 1#32 0x80000000#32 false .slt = (0#32, false) := by
  decide
theorem test_alu_eight_bits :
    compute 0xFF#8 1#8 false .add = (0#8, true) ∧ compute 0#8 1#8 false .sub = (0xFF#8, false) ∧
    compute 0x80#8 1#8 false .slt = (1#8, true) ∧ compute 0x7F#8 1#8 false .xor = (0x7E#8, false) := by decide

/-! ### The data memory (2.6) -/

theorem test_memRead_vectors :
    memRead [(0, 0xDE), (1, 0xAD), (2, 0xBE), (3, 0xEF)] 0#32 = (0xDEADBEEF#32, false) ∧
    memRead [(0, 0xDE), (1, 0xAD), (2, 0xBE), (3, 0xEF)] 1#32 = (0#32, true) ∧ memRead [] 0xFFC#32 = (0#32, false) ∧
    memRead [] 0x1000#32 = (0#32, true) ∧ memRead [] 0xFFFFFFFC#32 = (0#32, true) := by decide
/-- The mask 0001 writes the least significant byte, 1000 the most significant; the old word is 0x11223344. -/
theorem test_memWrite_mask :
    (memWrite [(0, 0x11), (1, 0x22), (2, 0x33), (3, 0x44)] true true 0#32 0xAABBCCDD#32 0b0001#4).1 =
      [(0, 0x11), (1, 0x22), (2, 0x33), (3, 0xDD)] ∧
    (memWrite [(0, 0x11), (1, 0x22), (2, 0x33), (3, 0x44)] true true 0#32 0xAABBCCDD#32 0b1000#4).1 =
      [(0, 0xAA), (1, 0x22), (2, 0x33), (3, 0x44)] ∧
    memWrite [] true true 2#32 0x01020304#32 0b1111#4 = ([], true) ∧ memWrite [] true true 0x1000#32 1#32 0b1111#4 = ([], true) ∧
    (memWrite [(4, 1)] true true 4#32 0#32 0b1111#4).1 = [] := by decide

/-! ### Each instruction (2.7, 2.8, 2.9): EX/MEM after its ID and EX ticks, or the PC its EX tick selects -/

theorem test_add_wraps :
    (executed (.add 3 1 2 0) (withRegs 0 0x7FFFFFFF 1 0)).aluResult = 0x80000000#32 ∧
    (executed (.add 3 1 2 0) (withRegs 0 0x7FFFFFFF 1 0)).writeRegIdx = 3 ∧
    (executed (.add 3 1 2 0) (withRegs 0 0x7FFFFFFF 1 0)).wb = ⟨true, false⟩ := by decide
theorem test_add_source_is_destination :
    (executed (.add 1 1 1 0) (withRegs 0 6 0 0)).aluResult = 12#32 ∧ (executed (.add 1 1 1 0) (withRegs 0 6 0 0)).writeRegIdx = 1 := by
  decide
theorem test_sub : (executed (.sub 3 1 2 0) (withRegs 0 5 7 0)).aluResult = 0xFFFFFFFE#32 := by decide
theorem test_and : (executed (.and 3 1 2 0) (withRegs 0 0xFF0F 0xFF0 0)).aluResult = 0xF00#32 := by decide
theorem test_or : (executed (.or 3 1 2 0) (withRegs 0 0xFF0F 0xFF0 0)).aluResult = 0xFFFF#32 := by decide
theorem test_slt_overflow : (executed (.slt 3 1 2 0) (withRegs 0 0x80000000 1 0)).aluResult = 1#32 := by decide
theorem test_slt_overflow_other_way : (executed (.slt 3 1 2 0) (withRegs 0 0x7FFFFFFF 0x80000000 0)).aluResult = 0#32 := by decide
theorem test_addi_negative :
    (executed (.addi 1 0 0x8000) (withRegs 0 0 0 0)).aluResult = 0xFFFF8000#32 ∧
    (executed (.addi 1 0 0x8000) (withRegs 0 0 0 0)).writeRegIdx = 1 := by decide
theorem test_addi_r0_writable :
    (executed (.addi 0 0 1) (withRegs 9 0 0 0)).aluResult = 10#32 ∧ (executed (.addi 0 0 1) (withRegs 9 0 0 0)).writeRegIdx = 0 := by
  decide
theorem test_lw_last_word :
    (memWbNext [(4092, 0x12), (4093, 0x34), (4094, 0x56), (4095, 0x78)] (executed (.lw 2 0xFFFC 1) (withRegs 0 0x1000 0 0))).readData =
      0x12345678#32 ∧ (executed (.lw 2 0xFFFC 1) (withRegs 0 0x1000 0 0)).writeRegIdx = 2 := by decide
theorem test_lw_misaligned :
    dmErrorNow [] (executed (.lw 2 2 0) (withRegs 0 0 0x55 0)) = true ∧
    (memWbNext [(2, 7)] (executed (.lw 2 2 0) (withRegs 0 0 0x55 0))).readData = 0#32 := by decide
theorem test_sw :
    dmNext [] (executed (.sw 3 100 0) (withRegs 0 0 0 30)) = [(103, 0x1E)] ∧
    dmNext [] (executed (.sw 1 0 1) (withRegs 0 8 0 0)) = [(11, 8)] := by decide
theorem test_sw_misaligned :
    dmNext [] (executed (.sw 1 3 0) (withRegs 0 7 0 0)) = [] ∧ dmErrorNow [] (executed (.sw 1 3 0) (withRegs 0 7 0 0)) = true := by
  decide
/-- P2 after cycle 2. -/
theorem test_beq_taken :
    branchInEx.flush = true ∧ branchInEx.nextPc = 12#32 ∧
    (commit (decodeCtl 0x20020001#32) 0x20020001#32 branchInEx).ifId = { instr := 0, pcPlus4 := 12 } ∧
    (commit (decodeCtl 0x20020001#32) 0x20020001#32 branchInEx).idEx = { IdEx.zero with pcPlus4 := 8 } := by decide
/-- 2.4: backward offsets. -/
theorem test_beq_backward :
    branchTarget 0x28#32 (sext32 0xFFFA#16) = 0x10#32 ∧ branchTarget 4#32 (sext32 0x8000#16) = 0xFFFE0004#32 := by decide
/-- P5 after cycle 2: no flush, the delay slot goes on into ID/EX. -/
theorem test_j_delay_slot :
    jumpInEx.flush = false ∧ jumpInEx.nextPc = 0x10#32 ∧
    (commit (decodeCtl 0x20010001#32) 0x20010001#32 jumpInEx).idEx.ctl = ctlAddi := by decide
theorem test_j_formula :
    jumpTarget 0x10000004#32 1#26 = 0x10000004#32 ∧ jumpTarget 0xF0000000#32 0x3FFFFFF#26 = 0xFFFFFFFC#32 := by decide
theorem test_nop_reads_without_mark :
    issued .nop (withRegs 1 2 3 4) = { IdEx.zero with rsData := 1, rtData := 1 } ∧
    dmErrorNow [] (executed .nop (withRegs 1 2 3 4)) = false := by decide
/-- 2.5: the exception vector is the mux's fourth input, and that code does not flush. -/
theorem test_pc_mux :
    pcMux 1#32 2#32 3#32 4#32 false false = 1#32 ∧ pcMux 1#32 2#32 3#32 4#32 true false = 2#32 ∧
    pcMux 1#32 2#32 3#32 4#32 false true = 3#32 ∧ pcMux 1#32 2#32 3#32 4#32 true true = 4#32 ∧
    (hazard true true).ifIdFlush = false := by decide

/-! ### Fetch, launch, inspection -/

theorem test_withFetchWord :
    (State.reset.withFetchWord 32 0x00221820).ifId = { instr := 0x00221820, pcPlus4 := 4 } ∧
    imemRead (State.reset.withFetchWord 32 0x00221820).imem 0 = 0x00221820#32 ∧ (State.reset.withFetchWord 32 0x00221820).pc = 4#32 := by
  decide
theorem test_launch :
    (launch [0x2001000A, 0x00221820] #v[1, 2, 3, 4] [0xDE, 0, 0xBE]).imem = [(0, 0x2001000A), (1, 0x00221820)] ∧
    (launch [0x2001000A, 0x00221820] #v[1, 2, 3, 4] [0xDE, 0, 0xBE]).dm = [(0, 0xDE), (2, 0xBE)] := by decide
theorem test_inspect : inspect branchInEx .idExAluOp = 5#32 ∧ inspect branchInEx (.gpr 1) = 7#32 := by decide
theorem test_reset_memory_wf : State.reset.dm.wf = true ∧ imemWf State.reset.imem = true := by decide

/-! ### Witnesses: states that meet the statements' hypotheses -/

/-- A tick without a model-only outcome answers a next state. -/
theorem runs {s : State} (h : edgeFault s = none) : ∃ t, step s = .next t := ⟨_, step_next_iff.2 ⟨h, rfl⟩⟩

theorem test_witness_clear_for_four : ClearForFour (withRegs 0 7 7 3) := ⟨rfl, rfl, by decide, by decide, by decide⟩
theorem test_witness_clear_for_two : ClearForTwo (withRegs 0 7 7 3) := ⟨rfl, rfl, by decide⟩

/-- Each instruction that transfers no control lives through four ticks from a state with its operands set. -/
theorem test_witness_life :
    ∀ i ∈ ([.add 3 1 2 0, .sub 3 1 2 0, .and 3 1 2 0, .or 3 1 2 0, .slt 3 1 2 0, .addi 1 0 10, .lw 2 100 0, .lw 2 2 0, .lw 2 4092 0,
        .lw 2 4096 0, .sw 3 100 0, .sw 3 2 0, .sw 3 4092 0, .sw 3 4096 0, .nop] : List Instr),
      ∃ d e m w, Life i (withRegs 0 7 7 3) d e m w := by
  intro i hi
  have hc : (ctlOf i).branch = false ∧ (ctlOf i).jump = false := by
    revert hi i
    decide
  obtain ⟨d, e, m, w, -, L⟩ := test_witness_clear_for_four.life i hc.1 hc.2
  exact ⟨d, e, m, w, L⟩
/-- So do a BEQ, taken (R1 = R2) and not taken (R1 and R3), and a J. -/
theorem test_witness_life_transfers :
    (∃ d e m w, Life (.beq 1 2 4) (withRegs 0 7 7 3) d e m w) ∧ (∃ d e m w, Life (.beq 1 3 4) (withRegs 0 7 7 3) d e m w) ∧
    (∃ d e m w, Life (.j 8) (withRegs 0 7 7 3) d e m w) :=
  ⟨⟨_, _, _, _, rfl, rfl, rfl, rfl, rfl⟩, ⟨_, _, _, _, rfl, rfl, rfl, rfl, rfl⟩, ⟨_, _, _, _, rfl, rfl, rfl, rfl, rfl⟩⟩
theorem test_witness_beq_operands :
    (withRegs 0 7 7 3).reg (regIdx 1) = (withRegs 0 7 7 3).reg (regIdx 2) ∧
    (withRegs 0 7 7 3).reg (regIdx 1) ≠ (withRegs 0 7 7 3).reg (regIdx 3) := by decide
/-- Effective addresses at the clauses' boundaries: 4092 good, 4096 and 2 bad. -/
theorem test_witness_effective_addresses :
    dmError (effectiveAddress 0#32 4092#16) = false ∧ dmError (effectiveAddress 0#32 4096#16) = true ∧
    dmError (effectiveAddress 0#32 2#16) = true := by decide
/-- A bad store and a load store nothing; a good store leaves byte 4 alone. -/
theorem test_witness_stores :
    (Instr.sw 3 2 0).stores (withRegs 0 7 7 3) 2 = false ∧ (Instr.sw 3 0 0).stores (withRegs 0 7 7 3) 4 = false ∧
    (Instr.sw 3 0 0).stores (withRegs 0 7 7 3) 3 = true ∧ (Instr.lw 2 100 0).stores (withRegs 0 7 7 3) 100 = false := by decide
theorem test_witness_frames :
    (Instr.add 3 1 2 0).destReg ≠ some 2 ∧ (Instr.sw 3 0 0).destReg ≠ some 3 ∧ (Instr.addi 1 0 10).destReg = some 1 ∧
    (Instr.nop).mnemonic ≠ .BEQ ∧ (Instr.nop).mnemonic ≠ .J := by decide

theorem test_witness_repeated_level :
    ∀ k : Fin 4, ((Vector.ofFn fun _ => ⟨false, true, true⟩ : CellRegister 4).get k).p = true := by decide
theorem test_witness_two_phase : ∃ t, step (committed (phaseOf branchInEx)) = .next t := runs (by decide)
theorem test_witness_memory :
    Memory.wf [(0, 0xDE), (4095, 1)] = true ∧ (0xFFC#32).toNat % 4 = 0 ∧ (0xFFC#32).toNat < 4096 ∧ (0xFF8#32) ≠ 0xFFC#32 := by decide
theorem test_witness_step_decodes : decode writeInWb.ifId.instr = .ok (.add 3 1 1 0) := rfl
/-- The register ID reads is the one WB writes, and no flush hides the read. -/
theorem test_witness_write_in_wb :
    (∃ t, step writeInWb = .next t) ∧ writeInWb.flush = false ∧ writeInWb.memWb.wb.regWrite = true ∧
    rsIdxOf writeInWb.ifId.instr = writeInWb.memWb.writeRegIdx := ⟨runs (by decide), by decide, rfl, by decide⟩
theorem test_witness_fetch_then_run :
    (∃ t, step jumpInEx = .next t) ∧ jumpInEx.flush = false ∧
    decode (imemRead jumpInEx.imem (fetchIndex jumpInEx.pc)) = .ok (.addi 2 0 2) := ⟨runs (by decide), by decide, by decide⟩
theorem test_witness_without_row :
    decode (withoutRow 0x00221800#32).ifId.instr = .error (.illegalFunct 0) ∧
    decode (withoutRow 0xFC000000#32).ifId.instr = .error (.unusedOpcode 0x3F) ∧
    (withoutRow 0xFC000000#32).idEx.ctl.branch = false ∧ fetchIndex (withoutRow 0xFC000000#32).pc < 256 := by decide
theorem test_witness_issue :
    (withRegs 0 7 7 3).flush = false ∧ (withRegs 0 7 7 3).bothSelects = false ∧ fetchIndex (withRegs 0 7 7 3).pc < 256 := by decide
/-- Each cause of a fault, at the first word past the memory and at the last inside it. -/
theorem test_witness_faults :
    step (bothSelected 0x3FC) = .fault .pcSrcException ∧
    step (bothSelected 0x400) = .fault .pcSrcExceptionAndFetchOutOfRange ∧ step pastProgram = .fault .fetchOutOfRange ∧
    edgeFault { State.reset with pc := 0x3FC } = none := ⟨rfl, rfl, rfl, by decide⟩
/-- A taken branch with its fetch past the memory still completes. -/
theorem test_witness_taken_branch :
    branchInEx.idEx.ctl.branch = true ∧ branchInEx.idEx.rsData = branchInEx.idEx.rtData ∧ branchInEx.idEx.ctl.jump = false ∧
    edgeFault { branchInEx with pc := 0x400 } = none := by decide
theorem test_witness_store_in_mem :
    (∃ t, step (storeInMem 0xFFC) = .next t) ∧ (storeInMem 0xFFC).dm.wf = true ∧ dmErrorNow [] (storeInMem 0xFFC).exMem = false ∧
    (∃ t, step (storeInMem 0x1000) = .next t) ∧ dmErrorNow [] (storeInMem 0x1000).exMem = true :=
  ⟨runs (by decide), by decide, by decide, runs (by decide), by decide⟩
theorem test_witness_exec_frame : ∃ t, exec (.add 3 1 2 0) (storeInMem 100) = .next t := ⟨_, exec_next_iff.2 ⟨by decide, rfl⟩⟩
theorem test_witness_exec_flushed :
    (∃ t, exec (.add 3 1 2 0) branchInEx = .next t) ∧ branchInEx.flush = true := ⟨⟨_, exec_next_iff.2 ⟨by decide, rfl⟩⟩, by decide⟩

/-- SW R1,8(R0) in ID with LW R3,8(R0) at the PC, as in P4. -/
def storeThenLoad : State := launch [0x8C030008] #v[0, 5, 0, 0] [1, 2, 3, 4]

theorem test_witness_store_then_load :
    ∃ d e m w v, Life (.sw 1 8 0) storeThenLoad d e m w ∧ decode d.ifId.instr = .ok (.lw 3 8 0) ∧ step w = .next v ∧
      storeThenLoad.dm.wf = true ∧
      effectiveAddress (d.reg (regIdx 0)) 8 = effectiveAddress (storeThenLoad.reg (regIdx 0)) 8 ∧
      dmError (effectiveAddress (storeThenLoad.reg (regIdx 0)) 8) = false ∧ v.reg (regIdx 3) = 5#32 :=
  ⟨_, _, _, _, _, ⟨rfl, rfl, rfl, rfl, rfl⟩, rfl, rfl, rfl, rfl, rfl, rfl⟩

theorem test_witness_invariant :
    branchInEx.Inv ∧ (∃ t, step branchInEx = .next t) ∧ pastProgram.Inv ∧ step pastProgram = .fault .fetchOutOfRange :=
  ⟨by decide, runs (by decide), by decide, rfl⟩

/-- Reset with the don't-cares of the bubble in ID/EX, and its pc_plus4, set to other values. -/
def otherBubble (pc : Word) : State :=
  { State.reset with pc := pc, idEx := { IdEx.zero with pcPlus4 := 0x40, ctl := { ctlNop with regDst := true, aluOp := .nor } } }

theorem otherBubble_same (pc : Word) : SameEffect { State.reset with pc := pc } (otherBubble pc) where
  regs := rfl
  pc := rfl
  ifId := rfl
  idEx := by constructor <;> first | rfl | simp [State.reset, IdEx.zero, ctlNop, otherBubble]
  exMem := by constructor <;> first | rfl | intro _; rfl
  memWb := by constructor <;> first | rfl | intro _; rfl
  imem := rfl
  dm := rfl
  cycle := rfl
  dmErrorSeen := rfl

theorem test_witness_same_effect :
    SameEffect State.reset (otherBubble 0) ∧ State.reset ≠ otherBubble 0 ∧ (∃ t, step State.reset = .next t) ∧
    SameEffect pastProgram (otherBubble 0x400) ∧ step pastProgram = .fault .fetchOutOfRange :=
  ⟨otherBubble_same 0, by decide, runs (by decide), otherBubble_same 0x400, rfl⟩

/-- A program whose first instruction stores, and one whose first instruction jumps: each clause of the first ticks at its
last tick, the effect landing one tick later (42_pipeline.md R93). -/
theorem test_witness_first_ticks :
    (∃ t, Sys2Proof.core.run 0 (launch [0x20010001] #v[0, 0, 0, 0] []) = .next t ∧ t.pc = 0#32) ∧
    (∃ t, Sys2Proof.core.run 2 (launch [0x08000008] #v[0, 0, 0, 0] []) = .next t ∧ t.pc = 8#32) ∧
    (∃ t, Sys2Proof.core.run 3 (launch [0xAC030064] #v[0, 0, 0, 30] []) = .next t ∧ t.dm = []) ∧
    (∃ t, Sys2Proof.core.run 4 (launch [0x20010001] #v[0, 0, 0, 0] []) = .next t ∧ t.regs = #v[0, 0, 0, 0]) :=
  ⟨⟨_, rfl, rfl⟩, ⟨_, rfl, rfl⟩, ⟨_, rfl, rfl⟩, ⟨_, rfl, rfl⟩⟩
/-- The tick after: the jump moves the PC in tick 3, the store is written in tick 4, the register in tick 5. -/
theorem test_first_effects_land :
    (∃ t, Sys2Proof.core.run 3 (launch [0x08000008] #v[0, 0, 0, 0] []) = .next t ∧ t.pc = 0x20#32) ∧
    (∃ t, Sys2Proof.core.run 4 (launch [0xAC030064] #v[0, 0, 0, 30] []) = .next t ∧ t.dm = [(103, 30)]) ∧
    (∃ t, Sys2Proof.core.run 5 (launch [0x20010001] #v[0, 0, 0, 0] []) = .next t ∧ t.regs = #v[0, 1, 0, 0]) :=
  ⟨⟨_, rfl, rfl⟩, ⟨_, rfl, rfl⟩, ⟨_, rfl, rfl⟩⟩

end Sys2Proof.Tests
end

/-! SUPPORT. What the rules of 10_state.md ask of the state: the invariant every tick keeps, the frames of an instruction's
MEM and WB ticks, the launch state, and the cycle counter. -/

namespace Sys2Proof.Machine

/-! ### Addresses that are multiples of 4 (10_state.md R21) -/

theorem aligned_iff (w : Word) : aligned w = true ↔ w.toNat % 4 = 0 := by
  rw [aligned, beq_iff_eq, ← BitVec.toNat_inj]
  simp [BitVec.extractLsb'_toNat]

theorem aligned_add_four {pc : Word} (h : aligned pc = true) : aligned (pc + 4#32) = true := by
  rw [aligned_iff] at *
  simp only [BitVec.toNat_add, BitVec.toNat_ofNat]
  omega

/-- A branch moves by whole words, so it keeps the alignment of the pc + 4 it starts from. -/
theorem aligned_branchTarget {pc4 : Word} (h : aligned pc4 = true) (imm : Word) :
    aligned (branchTarget pc4 imm) = true := by
  rw [aligned_iff] at *
  simp only [branchTarget, BitVec.toNat_add, BitVec.toNat_shiftLeft, Nat.shiftLeft_eq]
  omega

/-- The two zero bits below addr26 align every jump target. -/
theorem aligned_jumpTarget (pc4 : Word) (addr26 : BitVec 26) : aligned (jumpTarget pc4 addr26) = true := by
  rw [aligned_iff, jumpTarget_toNat]
  omega

/-- Each of the three PC inputs that can be selected is aligned. -/
theorem aligned_nextPc {s : State} (hsel : s.bothSelects = false) (hpc : aligned s.pc = true)
    (hid : aligned s.idEx.pcPlus4 = true) : aligned s.nextPc = true := by
  rw [nextPc_eq hsel]
  split
  · exact aligned_branchTarget hid _
  · split
    · exact aligned_jumpTarget _ _
    · exact aligned_add_four hpc

/-! ### The invariant -/

/-- The invariant, conjunct by conjunct: data memory, instruction memory, PC, IF/ID, ID/EX's pc + 4 and bundle, EX/MEM. -/
theorem State.inv_iff (s : State) :
    s.Inv ↔ s.dm.wf = true ∧ imemWf s.imem = true ∧ aligned s.pc = true ∧ aligned s.ifId.pcPlus4 = true ∧
      aligned s.idEx.pcPlus4 = true ∧ s.idEx.ctl.exclusive = true ∧ exMemExclusive s.exMem = true := by
  simp only [State.Inv, State.inv, Bool.and_eq_true, and_assoc]

/-- The exclusions that EX/MEM still shows are among those of the bundle it was loaded from. -/
theorem exMemExclusive_exMemNext {E : IdEx} (h : E.ctl.exclusive = true) :
    exMemExclusive (exMemNext exFlush E) = true := by
  simp only [Ctl.exclusive, Bool.and_eq_true] at h
  obtain ⟨⟨⟨⟨hreadWrite, -⟩, hread⟩, hwrite⟩, -⟩ := h
  simp [exMemExclusive, hreadWrite, hread, hwrite]

/-- IF/ID's pc + 4 comes from the PC, on a flush too. -/
theorem commit_ifId_pcPlus4 (ctl : Ctl) (w : Word) (s : State) : (commit ctl w s).ifId.pcPlus4 = s.pc + 4#32 := by
  rw [commit_ifId]
  split <;> simp

/-- ID/EX's pc + 4 comes from IF/ID, on a flush too (42_pipeline.md R100). -/
theorem commit_idEx_pcPlus4 (ctl : Ctl) (w : Word) (s : State) : (commit ctl w s).idEx.pcPlus4 = s.ifId.pcPlus4 := by
  rw [commit_idEx]
  split <;> rfl

/-- ID/EX takes the bundle of the instruction in ID, or the bubble's. -/
theorem commit_idEx_exclusive {ctl : Ctl} (h : ctl.exclusive = true) (w : Word) (s : State) :
    (commit ctl w s).idEx.ctl.exclusive = true := by
  rw [commit_idEx]
  split
  · rfl
  · exact h

/-- The clock edge keeps the invariant when not both PC selects are set and the bundle in ID is exclusive. -/
theorem commit_inv {ctl : Ctl} {w : Word} {s : State} (hs : s.Inv) (hsel : s.bothSelects = false)
    (hctl : ctl.exclusive = true) : (commit ctl w s).Inv := by
  obtain ⟨hdm, himem, hpc, hif, hid, hex, -⟩ := s.inv_iff.1 hs
  refine (State.inv_iff _).2 ⟨dmNext_wf hdm _, himem, aligned_nextPc hsel hpc hid, ?_, ?_, commit_idEx_exclusive hctl _ _,
    exMemExclusive_exMemNext hex⟩
  · rw [commit_ifId_pcPlus4]
    exact aligned_add_four hpc
  · rw [commit_idEx_pcPlus4]
    exact hif

/-- Settles O53: a step is the clock edge with a decoded bundle, which is exclusive, and an exclusive bundle in EX never
sets both PC selects. -/
theorem stepKeepsTheInvariant : Obligations.StepKeepsTheInvariant := by
  intro s t hs hstep
  obtain ⟨-, rfl⟩ := step_next_iff.1 hstep
  obtain ⟨-, -, -, -, -, hex, -⟩ := s.inv_iff.1 hs
  exact commit_inv hs (bothSelects_of_exclusive hex) (decodeCtl_exclusive _)

/-! ### The frame of write-back -/

/-- The register an instruction writes, if its bundle writes one, is the destination its ID/EX contents select. -/
theorem destReg_eq (i : Instr) (r : Regs) (pc4 : Word) :
    i.destReg = if (ctlOf i).regWrite then some (exDest (idStage (ctlOf i) (encode i) r pc4)) else none := by
  cases i with
  | add | sub | and | or | slt => exact congrArg some (rdIdxOf_encodeR ..).symm
  | addi | lw => exact congrArg some (rtIdxOf_encodeI ..).symm
  | sw | beq | j | nop => rfl

/-- Settles O44: the register `k` that write-back loads is the destination, which the premise rules out. -/
theorem onlyTheDestinationRegisterChanges : Obligations.OnlyTheDestinationRegisterChanges := by
  intro i s d e m w L k hk
  rw [L.reg_eq, if_neg]
  rintro ⟨hwrite, hdest⟩
  rw [L.idEx_eq] at hdest
  rw [destReg_eq i s.regs s.ifId.pcPlus4, if_pos hwrite, hdest] at hk
  exact hk rfl

/-! ### The frame of the memory access -/

/-- The ALU result of a load or store is its effective address. -/
theorem exAluResult_of_accessAddress {i : Instr} {s : State} {ea : Word} (h : i.accessAddress s = some ea) (pc4 : Word) :
    exAluResult (idStage (ctlOf i) (encode i) s.regs pc4) = ea := by
  cases i with
  | lw rt imm rs | sw rt imm rs =>
    cases h
    simp [exAluResult, exOperandB, ctlOf, ctlLw, ctlSw, encode, cinBase, effectiveAddress, State.reg]
  | add | sub | and | or | slt | addi | beq | j | nop => cases h

/-- Only SW has a bundle that writes memory. -/
theorem exists_sw_of_memWrite {i : Instr} (h : (ctlOf i).memWrite = true) : ∃ rt imm rs, i = .sw rt imm rs := by
  cases i with
  | sw rt imm rs => exact ⟨rt, imm, rs, rfl⟩
  | add | sub | and | or | slt | addi | lw | beq | j | nop => cases h

/-- The data memory stays canonical up to the MEM tick. -/
theorem Life.dm_wf {i : Instr} {s d e m w : State} (L : Life i s d e m w) (h : s.dm.wf = true) : e.dm.wf = true := by
  obtain ⟨rfl, rfl, -⟩ := L.edges
  exact dmNext_wf (dmNext_wf h _) _

/-- A byte that the MEM tick of an instruction writes is one of those it stores. -/
theorem Life.stores_of_written {i : Instr} {s d e m w : State} (L : Life i s d e m w) {a : Nat}
    (hwrite : e.exMem.mem.memWrite = true) (herr : dmError e.exMem.aluResult = false)
    (hlo : e.exMem.aluResult.toNat ≤ a) (hhi : a < e.exMem.aluResult.toNat + 4) : i.stores s a = true := by
  rw [L.exMem_eq, L.idEx_eq] at hwrite herr hlo hhi
  obtain ⟨rt, imm, rs, rfl⟩ := exists_sw_of_memWrite hwrite
  rw [exMemNext_aluResult, exAluResult_of_accessAddress rfl] at herr hlo hhi
  simp [Instr.stores, herr, hlo, hhi]

/-- Settles O45: a byte after the MEM tick is as before unless the store in MEM wrote it. -/
theorem onlyTheStoredBytesChange : Obligations.OnlyTheStoredBytesChange := by
  intro i s d e m w L hdm a hstores
  rw [L.dm_eq, dmByte_dmNext (L.dm_wf hdm), if_neg]
  rintro ⟨hwrite, herr, hlo, hhi⟩
  rw [L.stores_of_written hwrite herr hlo hhi] at hstores
  cases hstores

/-! ### The launch state (60_exceptions.md R142, 70_reset_and_hazards.md R148) -/

/-- Reading unit `j` of an array holding `x :: xs` from `i` on: first what the write of `x` at `i` left there, then `xs` from
`i + 1` on. -/
theorem getD_cons_from {α : Type} (x old : α) (xs : List α) (i j : Nat) :
    (if j < i + 1 then (if j = i then x else old) else xs.getD (j - (i + 1)) (if j = i then x else old)) =
      if j < i then old else (x :: xs).getD (j - i) old := by
  rcases Nat.lt_trichotomy j i with hlt | rfl | hgt
  · rw [if_pos (by omega), if_neg (by omega), if_pos hlt]
  · simp
  · obtain ⟨k, rfl⟩ := Nat.exists_eq_add_of_lt hgt
    rw [if_neg (by omega), if_neg (by omega), if_neg (by omega), show i + k + 1 - (i + 1) = k by omega,
      show i + k + 1 - i = k + 1 by omega, List.getD_cons_succ]

/-- An instruction word after the program is loaded from word index `i` on. -/
theorem imemRead_loadProgram (ws : List Word) {m : Imem} (h : imemWf m = true) (i : Nat) {j : Nat} (hj : j < 256) :
    imemRead (loadProgram i ws m) j = if j < i then imemRead m j else ws.getD (j - i) (imemRead m j) := by
  induction ws generalizing m i with
  | nil => simp [loadProgram]
  | cons x xs ih =>
    have hwrite : imemRead (imemWrite m i x) j = if j = i then x else imemRead m j := by
      rw [imemRead_write h]
      exact if_congr (and_iff_left_of_imp fun e : j = i => e ▸ hj) rfl rfl
    rw [loadProgram, ih (imemWrite_wf h i x), hwrite, getD_cons_from]

/-- A data byte after DM_INIT is loaded from byte address `a` on. -/
theorem dmByte_loadData (bs : List Byte) {m : Memory} (h : m.wf = true) (a : Nat) {j : Nat} (hj : j < 4096) :
    dmByte (loadData a bs m) j = if j < a then dmByte m j else bs.getD (j - a) (dmByte m j) := by
  induction bs generalizing m a with
  | nil => simp [loadData]
  | cons x xs ih =>
    have hwrite : dmByte (if a < Config.dmBytes then sparseSet m a x else m) j = if j = a then x else dmByte m j := by
      split
      · exact sparseGet_set h a j x
      · next ha => rw [if_neg fun e : j = a => ha (e ▸ hj)]
    rw [loadData, ih (loadByte_wf h a x), hwrite, getD_cons_from]

/-- The launch state is reset but for its registers and its memories, which loading keeps canonical. -/
theorem launch_inv (program : List Word) (gprInit : Regs) (dmInit : List Byte) : (launch program gprInit dmInit).Inv :=
  (State.inv_iff _).2 ⟨loadData_wf dmInit rfl 0, loadProgram_wf program rfl 0, rfl, rfl, rfl, rfl, rfl⟩

/-- Settles O56: the two loads start from empty memories, which read 0 everywhere. -/
theorem launchLoadsProgramRegistersAndData : Obligations.LaunchLoadsProgramRegistersAndData := by
  intro program gprInit dmInit
  refine ⟨fun i hi => ?_, rfl, fun a ha => ?_, launch_inv program gprInit dmInit⟩
  · exact imemRead_loadProgram program rfl 0 hi
  · exact dmByte_loadData dmInit rfl 0 ha

/-! ### The cycle counter and the program (10_state.md R34, 20_memory.md R48) -/

/-- Settles O30: both are read off the clock edge. -/
theorem tickAdvancesTheCounterAndKeepsTheProgram : Obligations.TickAdvancesTheCounterAndKeepsTheProgram := by
  intro s t hstep
  obtain ⟨-, rfl⟩ := step_next_iff.1 hstep
  exact ⟨commit_cycle .., commit_imem ..⟩

end Sys2Proof.Machine

/-! SUPPORT. The data memory of 20_memory.md: the two outcomes of a write, the bytes a masked write leaves, and a word made of
its bytes. -/

namespace Sys2Proof.Machine

/-! ### The two outcomes of a write (R40) -/

@[simp] theorem memWrite_error (m : Memory) (we clk : Bool) (addr v : Word) (be : BitVec 4) :
    (memWrite m we clk addr v be).2 = dmError addr := rfl

/-- Without write enable or clock, or on an error, a write changes nothing. -/
theorem memWrite_of_idle (m : Memory) {we clk : Bool} {addr : Word} (v : Word) (be : BitVec 4)
    (h : we = false ∨ clk = false ∨ dmError addr = true) : (memWrite m we clk addr v be).1 = m := by
  rcases h with h | h | h <;> simp [memWrite, gateAnd, h]

/-- An enabled write at a good address writes its lanes. -/
theorem memWrite_of_enabled (m : Memory) {addr : Word} (v : Word) (be : BitVec 4) (h : dmError addr = false) :
    (memWrite m true true addr v be).1 = writeLanes m addr.toNat v be := by
  simp [memWrite, gateAnd, h]

/-! ### Good addresses (R45) -/

/-- A good address has all four of its bytes inside the array. -/
theorem lastByte_lt_of_ok {addr : Word} (h : dmError addr = false) : addr.toNat + 3 < 4096 := by
  have := (dmError_false_iff addr).1 h
  omega

/-- Two different good addresses name words that do not overlap: both are multiples of 4. -/
theorem words_disjoint_of_ok {a b : Word} (ha : dmError a = false) (hb : dmError b = false) (hne : b ≠ a) :
    b.toNat + 4 ≤ a.toNat ∨ a.toNat + 4 ≤ b.toNat := by
  have halign := (dmError_false_iff a).1 ha
  have hblign := (dmError_false_iff b).1 hb
  have : b.toNat ≠ a.toNat := fun e => hne (BitVec.eq_of_toNat_eq e)
  omega

/-! ### A word and its bytes (R43) -/

/-- A word is known from its four bytes. -/
theorem dmWord_eq_append {m : Memory} {a : Nat} {byte : Nat → Byte} (h : ∀ i < 4, dmByte m (a + i) = byte i) :
    dmWord m a = byte 0 ++ byte 1 ++ byte 2 ++ byte 3 := by
  rw [← h 0 (by decide), ← h 1 (by decide), ← h 2 (by decide), ← h 3 (by decide)]
  rfl

/-- Appending a byte shifts the number by one byte. -/
theorem toNat_append_byte {n : Nat} (x : BitVec n) (b : Byte) : (x ++ b).toNat = x.toNat * 2 ^ 8 + b.toNat := by
  rw [BitVec.toNat_append, ← Nat.shiftLeft_add_eq_or_of_lt b.isLt, Nat.shiftLeft_eq]

/-- The big-endian word as a number. -/
theorem dmWord_toNat (m : Memory) (a : Nat) :
    (dmWord m a).toNat = (dmByte m a).toNat * 2 ^ 24 + (dmByte m (a + 1)).toNat * 2 ^ 16 +
      (dmByte m (a + 2)).toNat * 2 ^ 8 + (dmByte m (a + 3)).toNat := by
  rw [dmWord, toNat_append_byte, toNat_append_byte, toNat_append_byte]
  omega

/-! ### The bytes a masked write leaves (R40) -/

section Lanes
variable {m : Memory} {a : Nat} (h : m.wf = true) (ha : a + 3 < 4096) (v : Word) (be : BitVec 4)
include h ha

/-- Inside the word: the lane's byte where its enable is 1. -/
theorem dmByte_writeLanes_inside {i : Nat} (hi : i < 4) :
    dmByte (writeLanes m a v be) (a + i) = if be.getMsbD i then laneByte v i else dmByte m (a + i) := by
  rw [dmByte_writeLanes h ha, if_neg (by omega), Nat.add_sub_cancel_left]

/-- Outside the word: as before. -/
theorem dmByte_writeLanes_outside {x : Nat} (hx : x < a ∨ a + 4 ≤ x) :
    dmByte (writeLanes m a v be) x = dmByte m x := by
  rw [dmByte_writeLanes h ha, if_pos hx]

/-- With all four enables every byte of the word is written. -/
theorem dmByte_writeLanes_all {i : Nat} (hi : i < 4) :
    dmByte (writeLanes m a v storeEnables) (a + i) = laneByte v i := by
  have enabled : ∀ i < 4, storeEnables.getMsbD i = true := by decide
  rw [dmByte_writeLanes_inside h ha v _ hi, if_pos (enabled i hi)]

/-- A word written with all four enables reads back whole. -/
theorem dmWord_writeLanes_same : dmWord (writeLanes m a v storeEnables) a = v :=
  calc dmWord (writeLanes m a v storeEnables) a
    _ = laneByte v 0 ++ laneByte v 1 ++ laneByte v 2 ++ laneByte v 3 :=
      dmWord_eq_append fun _ hi => dmByte_writeLanes_all h ha v hi
    _ = v := laneBytes_append v

/-- A word that does not overlap the written one is as before. -/
theorem dmWord_writeLanes_disjoint {b : Nat} (hb : b + 4 ≤ a ∨ a + 4 ≤ b) :
    dmWord (writeLanes m a v be) b = dmWord m b := by
  rw [dmWord_eq_append (byte := fun i => dmByte m (b + i)) fun _ hi => dmByte_writeLanes_outside h ha v be (by omega),
    dmWord_eq_append fun _ _ => rfl]

end Lanes

/-! ### The statements of 20_memory.md -/

/-- Settles O8: the error wire splits a read into its two outcomes. -/
theorem readIsBigEndianOrZeroWithError : Obligations.ReadIsBigEndianOrZeroWithError := by
  intro m addr
  refine ⟨fun herr => memRead_of_error ((dmError_iff addr).2 herr), fun halign hbound => ?_⟩
  rw [memRead_of_ok ((dmError_false_iff addr).2 ⟨halign, hbound⟩)]
  exact ⟨rfl, dmWord_toNat m addr.toNat⟩

/-- Settles O9: a write is idle or writes its lanes, and the lanes are the shifted bytes of the word. -/
theorem maskedWriteChangesExactlyTheEnabledLanes : Obligations.MaskedWriteChangesExactlyTheEnabledLanes := by
  intro m we clk addr v be hm
  rw [memWrite_error]
  refine ⟨dmError_iff addr, fun hidle => ?_, ?_⟩
  · rw [← dmError_iff] at hidle
    exact memWrite_of_idle m v be hidle
  · rintro rfl rfl halign hbound
    have hok : dmError addr = false := (dmError_false_iff addr).2 ⟨halign, hbound⟩
    have hlast := lastByte_lt_of_ok hok
    rw [memWrite_of_enabled m v be hok]
    refine ⟨fun i hi => ?_, fun x hx => dmByte_writeLanes_outside hm hlast v be hx⟩
    rw [dmByte_writeLanes_inside hm hlast v be hi, laneByte_eq_shift]

/-- Settles O10: the word itself is put back together from its lanes; a read elsewhere is an error before and after, or of a
word that does not overlap. -/
theorem storedWordReadsBack : Obligations.StoredWordReadsBack := by
  intro m addr other v hm halign hbound
  have hok : dmError addr = false := (dmError_false_iff addr).2 ⟨halign, hbound⟩
  have hlast := lastByte_lt_of_ok hok
  rw [memWrite_of_enabled m v _ hok]
  constructor
  · rw [memRead_of_ok hok, dmWord_writeLanes_same hm hlast v]
  · intro hne
    cases hother : dmError other with
    | true => rw [memRead_of_error hother, memRead_of_error hother]
    | false =>
      rw [memRead_of_ok hother, memRead_of_ok hother,
        dmWord_writeLanes_disjoint hm hlast v _ (words_disjoint_of_ok hok hother hne)]

end Sys2Proof.Machine

/-! SUPPORT. The encoding of 30_encoding.md: one row of the opcode map at a time, a word has the row's match under its mask
exactly when the decoder reads the row's instruction from it, and the encoder's word gives every operand back. -/

namespace Sys2Proof.Machine

open Sys2Proof.Laws

/-! ### The instruction a row reads from a word (R55 to R57) -/

/-- The instruction of row `r` with the operands that stand in the fields of `w`. -/
def rowInstr (r : Mnemonic) (w : Word) : Instr :=
  match r with
  | .ADD => .add (rdField w) (rsField w) (rtField w) (shamtField w)
  | .SUB => .sub (rdField w) (rsField w) (rtField w) (shamtField w)
  | .AND => .and (rdField w) (rsField w) (rtField w) (shamtField w)
  | .OR => .or (rdField w) (rsField w) (rtField w) (shamtField w)
  | .SLT => .slt (rdField w) (rsField w) (rtField w) (shamtField w)
  | .ADDI => .addi (rtField w) (rsField w) (imm16Field w)
  | .LW => .lw (rtField w) (imm16Field w) (rsField w)
  | .SW => .sw (rtField w) (imm16Field w) (rsField w)
  | .BEQ => .beq (rsField w) (rtField w) (imm16Field w)
  | .J => .j (addr26Field w)
  | .NOP => .nop

@[simp] theorem rowInstr_mnemonic (r : Mnemonic) (w : Word) : (rowInstr r w).mnemonic = r := by cases r <;> rfl

/-- Every register operand a row reads is the number of a 5-bit field. -/
theorem rowInstr_wellFormed (r : Mnemonic) (w : Word) : (rowInstr r w).WellFormed := by
  have hfits (x : BitVec 5) : regNumberFits x.toNat = true := decide_eq_true x.isLt
  have hrd : regNumberFits (rdField w) = true := hfits _
  have hrs : regNumberFits (rsField w) = true := hfits _
  have hrt : regNumberFits (rtField w) = true := hfits _
  cases r <;> simp [rowInstr, Instr.WellFormed, Instr.wellFormed, hrd, hrs, hrt]

/-! ### The fields of an encoded word (R55, R56): above the lower fields, or the lowest -/

/-- A well-formed register number survives its 5-bit field. -/
theorem toNat_regField {n : Nat} (h : regNumberFits n = true) : (regField n).toNat = n :=
  Nat.mod_eq_of_lt (of_decide_eq_true h)

section Fields
variable {v w n start : Nat} {hi : BitVec v} {lo : BitVec w} {x : BitVec n}

/-- A field above the low part of a word is a field of the high part. -/
theorem extractLsb'_append_of_above (hw : w ≤ start) (h : hi.extractLsb' (start - w) n = x) : (hi ++ lo).extractLsb' start n = x :=
  (BitVec.extractLsb'_append_eq_of_le hw).trans h

variable (rd rs rt : Nat) (shamt : BitVec 5) (funct op : BitVec 6) (imm : BitVec 16)

@[simp] theorem shamtField_encodeR : shamtField (encodeR rd rs rt shamt funct) = shamt :=
  extractLsb'_append_of_above (by decide) BitVec.extractLsb'_append_eq_right

@[simp] theorem rdField_encodeR : rdField (encodeR rd rs rt shamt funct) = (regField rd).toNat :=
  congrArg BitVec.toNat <| extractLsb'_append_of_above (by decide) <| extractLsb'_append_of_above (by decide)
    BitVec.extractLsb'_append_eq_right

@[simp] theorem rtField_encodeR : rtField (encodeR rd rs rt shamt funct) = (regField rt).toNat :=
  congrArg BitVec.toNat <| extractLsb'_append_of_above (by decide) <| extractLsb'_append_of_above (by decide) <|
    extractLsb'_append_of_above (by decide) BitVec.extractLsb'_append_eq_right

@[simp] theorem rsField_encodeR : rsField (encodeR rd rs rt shamt funct) = (regField rs).toNat :=
  congrArg BitVec.toNat <| extractLsb'_append_of_above (by decide) <| extractLsb'_append_of_above (by decide) <|
    extractLsb'_append_of_above (by decide) <| extractLsb'_append_of_above (by decide) BitVec.extractLsb'_append_eq_right

@[simp] theorem rtField_encodeI : rtField (encodeI op rs rt imm) = (regField rt).toNat :=
  congrArg BitVec.toNat <| extractLsb'_append_of_above (by decide) BitVec.extractLsb'_append_eq_right

@[simp] theorem rsField_encodeI : rsField (encodeI op rs rt imm) = (regField rs).toNat :=
  congrArg BitVec.toNat <| extractLsb'_append_of_above (by decide) <| extractLsb'_append_of_above (by decide)
    BitVec.extractLsb'_append_eq_right

end Fields

/-- A row reads its own instructions back from their words, operand by operand. -/
theorem rowInstr_encode {i : Instr} (hi : i.WellFormed) : rowInstr i.mnemonic (encode i) = i := by
  cases i with
  | add | sub | and | or | slt =>
    simp only [Instr.WellFormed, Instr.wellFormed, Bool.and_eq_true] at hi
    obtain ⟨⟨hrd, hrs⟩, hrt⟩ := hi
    simp [Instr.mnemonic, encode, rowInstr, toNat_regField, hrd, hrs, hrt]
  | addi | lw | sw | beq =>
    simp only [Instr.WellFormed, Instr.wellFormed, Bool.and_eq_true] at hi
    obtain ⟨hfst, hsnd⟩ := hi
    simp [Instr.mnemonic, encode, rowInstr, toNat_regField, hfst, hsnd]
  | j addr26 => exact congrArg Instr.j (addr26Field_encodeJ opJ addr26)
  | nop => rfl

/-! ### The match and mask of a row (R62) -/

section Row
variable {w : Word} {r : Mnemonic} (h : w &&& opcodeMask r = opcodeMatch r)
include h

/-- Every mask covers the opcode field, so a matching word has the row's opcode. -/
theorem opcodeField_of_match : opcodeField w = opcodeField (opcodeMatch r) := by
  have hmask : opcodeField (opcodeMask r) = BitVec.allOnes 6 := by cases r <;> rfl
  calc opcodeField w
    _ = opcodeField w &&& opcodeField (opcodeMask r) := by rw [hmask, BitVec.and_allOnes]
    _ = opcodeField (opcodeMatch r) := by rw [← h]; exact BitVec.extractLsb'_and.symm

/-- Where the mask covers the funct field, a matching word has the row's funct. -/
theorem functField_of_match (hmask : functField (opcodeMask r) = BitVec.allOnes 6) :
    functField w = functField (opcodeMatch r) :=
  calc functField w
    _ = functField w &&& functField (opcodeMask r) := by rw [hmask, BitVec.and_allOnes]
    _ = functField (opcodeMatch r) := by rw [← h]; exact BitVec.extractLsb'_and.symm

/-- The all-zero word matches the NOP's row only. -/
theorem ne_zero_of_match (hr : opcodeMatch r ≠ 0#32) : w ≠ 0#32 := by
  rintro rfl
  exact hr (by rw [← h, BitVec.zero_and])

/-- A word with a row's match under its mask decodes to that row's instruction (R63). -/
theorem decode_of_match : decode w = .ok (rowInstr r w) := by
  have hop := opcodeField_of_match h
  cases r with
  | ADD => exact decode_add (ne_zero_of_match h (by decide)) hop (functField_of_match h rfl)
  | SUB => exact decode_sub (ne_zero_of_match h (by decide)) hop (functField_of_match h rfl)
  | AND => exact decode_and (ne_zero_of_match h (by decide)) hop (functField_of_match h rfl)
  | OR => exact decode_or (ne_zero_of_match h (by decide)) hop (functField_of_match h rfl)
  | SLT => exact decode_slt (ne_zero_of_match h (by decide)) hop (functField_of_match h rfl)
  | ADDI => exact decode_addi (ne_zero_of_match h (by decide)) hop
  | LW => exact decode_lw (ne_zero_of_match h (by decide)) hop
  | SW => exact decode_sw (ne_zero_of_match h (by decide)) hop
  | BEQ => exact decode_beq (ne_zero_of_match h (by decide)) hop
  | J => exact decode_j (ne_zero_of_match h (by decide)) hop
  | NOP =>
    obtain rfl : w = 0#32 := by rw [← BitVec.and_allOnes (x := w)]; exact h
    exact decode_nop

end Row

/-- The encoder's word matches its instruction's row. -/
theorem encode_match (i : Instr) : encode i &&& opcodeMask i.mnemonic = opcodeMatch i.mnemonic := by
  cases i with
  | add => exact EncodingRow.add ..
  | sub => exact EncodingRow.sub ..
  | and => exact EncodingRow.and ..
  | or => exact EncodingRow.or ..
  | slt => exact EncodingRow.slt ..
  | addi => exact EncodingRow.addi ..
  | lw => exact EncodingRow.lw ..
  | sw => exact EncodingRow.sw ..
  | beq => exact EncodingRow.beq ..
  | j => exact EncodingRow.j ..
  | nop => exact EncodingRow.nop

/-- A decoded word matches the row of what was read: it is the encoder's word for it. -/
theorem match_of_decode {w : Word} {i : Instr} (h : decode w = .ok i) :
    w &&& opcodeMask i.mnemonic = opcodeMatch i.mnemonic := by
  rw [← encode_of_decode h]
  exact encode_match i

/-- Decoding a word with a row reads the row's fields. -/
theorem eq_rowInstr_of_decode {w : Word} {i : Instr} (h : decode w = .ok i) : i = rowInstr i.mnemonic w :=
  Except.ok.inj (h.symm.trans (decode_of_match (match_of_decode h)))

/-! ### The statements about the encoding -/

/-- Settles O11: the encoder's word has its row's match, so the decoder reads that row, and the row gives the operands back. -/
theorem decodeOfEncodeIsTheInstruction : Obligations.DecodeOfEncodeIsTheInstruction := by
  intro i hi
  rw [decode_of_match (encode_match i), rowInstr_encode hi]

/-- Settles O12: what was decoded re-encodes into its row; a word of a row decodes to that row's instruction. -/
theorem decodeSelectsTheMatchingRow : Obligations.DecodeSelectsTheMatchingRow := by
  intro w r
  constructor
  · rintro ⟨i, hdecode, rfl⟩
    exact match_of_decode hdecode
  · intro hmatch
    exact ⟨rowInstr r w, decode_of_match hmatch, rowInstr_mnemonic r w⟩

/-- Settles O13: the decoder's operands are the contents of 5-bit fields. -/
theorem decodedInstructionIsWellFormedAndReencodes : Obligations.DecodedInstructionIsWellFormedAndReencodes := by
  intro w i h
  refine ⟨?_, encode_of_decode h⟩
  rw [eq_rowInstr_of_decode h]
  exact rowInstr_wellFormed _ w

/-- Settles O14: each word is the encoder's word for the well-formed instruction it stands for, which the decoder gives back. -/
theorem wordsOfTheSpecDecode : Obligations.WordsOfTheSpecDecode := by
  have roundTrip := decodeOfEncodeIsTheInstruction
  exact ⟨roundTrip (.add 3 1 2 0) rfl, roundTrip (.sub 3 1 2 0) rfl, roundTrip (.and 3 1 2 0) rfl,
    roundTrip (.or 3 1 2 0) rfl, roundTrip (.slt 3 1 2 0) rfl, roundTrip (.addi 1 0 10) rfl, roundTrip (.lw 2 100 0) rfl,
    roundTrip (.sw 3 100 0) rfl, roundTrip (.beq 1 1 2) rfl, roundTrip (.j 8) rfl, roundTrip .nop rfl⟩

/-! ### Words with no row (R64, 41_decoder.md R88) -/

/-- With no branch in EX, a tick whose fetch is in range meets no model-only outcome. -/
theorem edgeFault_none_of_no_branch {s : State} (hb : s.idEx.ctl.branch = false) (hr : fetchIndex s.pc < 256) :
    edgeFault s = none := by
  have hsel : s.bothSelects = false := by rw [← Bool.not_eq_true, bothSelects_iff, hb]; simp
  exact (edgeFault_none_iff s).2 ⟨hsel, (fetchFails_false_iff s).2 (.inr hr)⟩

/-- Settles O18: the tick completes, and with no flush ID/EX takes what ID decoded, which for a word with no row is its free
bundle. -/
theorem wordWithoutARowRunsOnItsFreeBundle : Obligations.WordWithoutARowRunsOnItsFreeBundle := by
  intro s err herr hb hr
  have hidEx := commit_idEx_of_no_flush (decodeCtl s.ifId.instr) s.ifId.instr s (flush_of_no_branch hb)
  refine ⟨_, step_next_iff.2 ⟨edgeFault_none_of_no_branch hb hr, rfl⟩, ?_⟩
  rw [hidEx, idStage_ctl, decodeCtl_of_error herr]
  exact ⟨rfl, rfl, rfl, rfl, rfl, rfl⟩

/-- A tick answers a next state or a fault. -/
theorem tick_ne_refused (ctl : Ctl) (w : Word) (s : State) (r : Refusal) : tick ctl w s ≠ .refused r := by
  unfold tick
  split <;> nofun

/-- Settles O23: every step is a tick, whether or not the word has a row. -/
theorem stepNeverRefuses : Obligations.StepNeverRefuses := by
  intro s r
  rw [step_eq_tick]
  exact tick_ne_refused _ _ s r

end Sys2Proof.Machine

/-! SUPPORT. The circuit primitives of 40_circuit_primitives.md: what a cell, a register of cells and a latch show after each
clock phase, the ripple-carry adder as the library's, and SLT as the signed comparison. -/

namespace Sys2Proof.Machine

/-! ### The cell (R70 to R72) -/

section CellLaws
variable (c : Cell) (clk d : Bool)

@[simp] theorem cellStep_p : (cellStep c clk d).p = clk := by cases clk <;> rfl

/-- A clk=0 call shows nothing. -/
@[simp] theorem cellStep_q_settle : (cellStep c false d).q = c.q := rfl

/-- The rising edge shows the d of the clk=0 call before it. -/
@[simp] theorem cellStep_q_cycle (d' : Bool) : (cellStep (cellStep c false d) true d').q = d := rfl

/-- A call at the level of the call before it shows nothing. -/
theorem cellStep_q_repeat {c : Cell} {clk : Bool} (h : c.p = clk) : (cellStep c clk d).q = c.q := by
  cases clk with
  | false => rfl
  | true => simp [cellStep, gateNot, h]

end CellLaws

/-! ### The register of cells (R73, R74) -/

section RegisterLaws
variable {n : Nat} (r : CellRegister n) (load clk : Bool) (d : BitVec n)

/-- Cell `k` steps with the shared clock on its bit of the data, or on its own output. -/
@[simp] theorem registerStep_get (k : Fin n) :
    (registerStep r load d clk).get k = cellStep (r.get k) clk (select (r.get k).q (d.getLsbD k) load) :=
  Vector.get_ofFn _ k

theorem getLsbD_registerQ (k : Fin n) : (registerQ r).getLsbD k = (r.get k).q := by
  simp [registerQ]

/-- An output bus is known from its cells. -/
theorem registerQ_eq {r : CellRegister n} {v : BitVec n} (h : ∀ k : Fin n, (r.get k).q = v.getLsbD k) :
    registerQ r = v := by
  apply BitVec.eq_of_getLsbD_eq
  intro i hi
  exact (getLsbD_registerQ r ⟨i, hi⟩).trans (h ⟨i, hi⟩)

/-- Cells that all saw the clock level `clk` last keep the bus on a further call at that level. -/
theorem registerQ_registerStep_repeat {r : CellRegister n} {clk : Bool} (h : ∀ k : Fin n, (r.get k).p = clk) :
    registerQ (registerStep r load d clk) = registerQ r := by
  apply registerQ_eq
  intro k
  rw [registerStep_get, cellStep_q_repeat _ (h k), getLsbD_registerQ]

end RegisterLaws

/-- Settles O1: every cell shows what it sampled at clk=0, its bit of the data or its own output. -/
theorem registerCommitsThePhaseZeroSample : Obligations.RegisterCommitsThePhaseZeroSample := by
  intro n r load0 load1 d0 d1
  apply registerQ_eq
  intro k
  rw [registerCycle, registerStep_get, registerStep_get, cellStep_q_cycle]
  cases load0 with
  | false => exact (getLsbD_registerQ r k).symm
  | true => rfl

/-- Settles O2: after a clk=1 call every cell saw level 1 last. -/
theorem registerHoldsOnARepeatedClockLevel : Obligations.RegisterHoldsOnARepeatedClockLevel := by
  refine ⟨fun n r clk load d hp => registerQ_registerStep_repeat load d hp, fun n r load load' d d' => ?_⟩
  apply registerQ_registerStep_repeat
  intro k
  rw [registerStep_get, cellStep_p]

/-! ### The two-phase core (R75, R76) -/

section LatchLaws
variable {α : Type} (l : Latch α) (d : α)

@[simp] theorem latchStep_q_settle : (latchStep l false d).q = l.q := rfl

@[simp] theorem latchStep_q_cycle (d' : α) : (latchStep (latchStep l false d) true d').q = d := rfl

variable {n : Nat} (ls : Vector (Latch α) n) (ds : Vector α n)

/-- Settling a file of latches shows nothing. -/
theorem map_q_settle : (Vector.zipWith (fun l d => latchStep l false d) ls ds).map Latch.q = ls.map Latch.q := by
  ext i hi
  simp

/-- Settling and then committing a file of latches shows what was settled. -/
theorem map_q_cycle (ds' : Vector α n) :
    (Vector.zipWith (fun l d => latchStep l true d)
      (Vector.zipWith (fun l d => latchStep l false d) ls ds) ds').map Latch.q = ds := by
  ext i hi
  simp

end LatchLaws

section Phases
variable (ctl : Ctl) (w : Word) (P : PhaseCore)

/-- The clk=0 phase changes no committed value. -/
theorem committed_settlePhase : committed (settlePhase ctl w P) = committed P := by
  simp [committed, settlePhase, latchAll, map_q_settle]

/-- The two phases together are the clock edge of the committed state, fault or no fault. -/
theorem committed_commitPhase_settlePhase :
    committed (commitPhase ctl w (settlePhase ctl w P)) = commit ctl w (committed P) := by
  simp [committed, commitPhase, settlePhase, latchAll, map_q_cycle, commit]

end Phases

/-- Settles O3: a step that answers is the clock edge, and so are the two phases. -/
theorem twoPhaseTickIsTheCycleStep : Obligations.TwoPhaseTickIsTheCycleStep := by
  intro P
  refine ⟨committed_settlePhase _ _ P, fun t hstep => ?_⟩
  obtain ⟨-, rfl⟩ := step_next_iff.1 hstep
  exact committed_commitPhase_settlePhase _ _ P

/-! ### The adder (R79, R80) -/

section AdderLaws
variable {n : Nat} (a b : BitVec n) (cin : Bool)

/-- The carry built from gates is the library's carry of the sum of the lower bits. -/
theorem carryInto_eq_carry (i : Nat) : carryInto a b cin i = BitVec.carry i a b cin := by
  induction i with
  | zero => exact BitVec.carry_zero.symm
  | succ i ih =>
    rw [carryInto, BitVec.carry_succ, ih]
    cases a.getLsbD i <;> cases b.getLsbD i <;> cases BitVec.carry i a b cin <;> rfl

/-- carry_out says whether the exact sum reached 2^n (D17). -/
theorem carryOut_eq : carryOut a b cin = decide (2 ^ n ≤ a.toNat + b.toNat + cin.toNat) :=
  (carryInto_eq_carry a b cin n).trans BitVec.carry_width

theorem adder_toNat : (adder a b cin).toNat = (a.toNat + b.toNat + cin.toNat) % 2 ^ n := BitVec.toNat_ofNat _ _

theorem adder_eq_add : adder a b cin = a + b + BitVec.setWidth n (BitVec.ofBool cin) := by
  apply BitVec.eq_of_toNat_eq
  simp [adder_toNat]

/-- Bit `i` of the sum is the XOR of the operand bits and the carry into `i`. -/
theorem getLsbD_adder {i : Nat} (hi : i < n) :
    (adder a b cin).getLsbD i = (a.getLsbD i ^^ b.getLsbD i ^^ carryInto a b cin i) := by
  rw [adder_eq_add, BitVec.getLsbD_add_add_bool hi, carryInto_eq_carry, Bool.xor_assoc]

end AdderLaws

/-- Settles O4: ADD is the adder with cin_base as its carry-in. -/
theorem addRipplesToTheExactSum : Obligations.AddRipplesToTheExactSum :=
  ⟨fun _ a b cin => ⟨adder_toNat a b cin, fun _ hi => getLsbD_adder a b cin hi, carryOut_eq a b cin, compute_add a b⟩,
    by decide⟩

/-- Settles O5: SUB is the adder on the complement with the carry-in forced to 1. -/
theorem subIgnoresCinBase : Obligations.SubIgnoresCinBase :=
  ⟨fun _ a b cin => ⟨adder_toNat a (~~~b) true, compute_sub a b cin⟩, compute_sub _ _ _⟩

/-! ### SLT (R81) -/

section SltLaws
variable {n : Nat} {a b : BitVec n}

/-- Operands of one sign have a difference with no overflow, so its sign decides. -/
theorem msb_sub_of_msb_eq (h : a.msb = b.msb) : (a - b).msb = decide (a.toInt < b.toInt) := by
  have hover : ¬ BitVec.ssubOverflow a b := by
    rw [BitVec.ssubOverflow_eq, h]
    cases b.msb <;> simp
  rw [BitVec.msb_eq_toInt, BitVec.toInt_sub_of_not_ssubOverflow hover]
  exact decide_eq_decide.2 sub_neg

/-- Of two operands of different sign the negative one is the smaller. -/
theorem msb_of_msb_ne (h : a.msb ≠ b.msb) : a.msb = decide (a.toInt < b.toInt) := by
  rw [BitVec.msb_eq_toInt, BitVec.msb_eq_toInt, ne_eq, decide_eq_decide] at h
  rw [BitVec.msb_eq_toInt]
  exact decide_eq_decide.2 (by omega)

variable (a b)

/-- Sign XOR overflow of the difference is the signed comparison. -/
theorem lessThan_sub : lessThan a b (a - b) = decide (a.toInt < b.toInt) := by
  rw [lessThan, gateXor_eq, subOverflow, gateAnd]
  by_cases h : a.msb = b.msb
  · simp [h, msb_sub_of_msb_eq h]
  · rw [← msb_of_msb_ne h, bne_iff_ne.2 h]
    cases a.msb <;> cases (a - b).msb <;> rfl

/-- SLT's result is its comparison, zero-extended. -/
theorem compute_slt_toNat (hn : 0 < n) (cin : Bool) :
    (compute a b cin .slt).1.toNat = (lessThan a b (a - b)).toNat := by
  have hfits : (lessThan a b (a - b)).toNat < 2 ^ n :=
    (Bool.toNat_lt _).trans_le (Nat.le_self_pow hn.ne' 2)
  rw [compute_slt, BitVec.toNat_setWidth, BitVec.toNat_ofBool, Nat.mod_eq_of_lt hfits]

theorem compute_slt_getLsbD_zero (hn : 0 < n) (cin : Bool) :
    (compute a b cin .slt).1.getLsbD 0 = lessThan a b (a - b) := by
  rw [compute_slt, BitVec.getLsbD_setWidth, BitVec.getLsbD_ofBool]
  simp [hn]

end SltLaws

/-- Settles O6: bit 0 is sign XOR overflow, which is the signed comparison; the four examples run. -/
theorem sltIsTheSignedComparison : Obligations.SltIsTheSignedComparison := by
  refine ⟨fun n hn a b cin => ⟨?_, ?_⟩, by decide, by decide, by decide, by decide⟩
  · rw [compute_slt_toNat a b hn, lessThan_sub]
    exact Bool.cond_decide _ 1 0
  · rw [compute_slt_getLsbD_zero a b hn, lessThan, gateXor_eq]
    rfl

end Sys2Proof.Machine

/-! SUPPORT. The control decoder of 41_decoder.md: the exclusions a decoded bundle meets, what ID latches for each instruction,
and a congruence per stage for contents that differ only where no later stage reads them. -/

namespace Sys2Proof.Machine

/-! ### The exclusions (R89) -/

/-- The exclusions, rule by rule. -/
theorem Ctl.exclusive_iff (c : Ctl) :
    c.exclusive = true ↔ ¬ (c.memRead = true ∧ c.memWrite = true) ∧ ¬ (c.branch = true ∧ c.jump = true) ∧
      (c.memRead = true → c.regWrite = true ∧ c.dataSrcToReg = true) ∧ (c.memWrite = true → c.regWrite = false) ∧
      (c.branch = true → c.aluOp = .sub) := by
  simp only [Ctl.exclusive, imp_iff_not_or, not_and_or, Bool.not_eq_true, Bool.and_eq_true, Bool.or_eq_true, Bool.not_eq_true',
    Bool.and_eq_false_iff, beq_iff_eq, and_assoc]

/-- Settles O15: a row's bundle and a free bundle are both exclusive. -/
theorem everyDecodedBundleIsExclusive : Obligations.EveryDecodedBundleIsExclusive :=
  fun w => (Ctl.exclusive_iff _).1 (decodeCtl_exclusive w)

/-! ### Dispatch (R84) -/

/-- Settles O16: the two ticks have the same bundle and the same word. -/
theorem stepRunsTheDecodedInstruction : Obligations.StepRunsTheDecodedInstruction := by
  intro s i h
  rw [step_eq_tick, exec_eq_tick, decodeCtl_of_ok h, encode_of_decode h]

/-! ### What ID reads from an instruction's word (R85, 42_pipeline.md R99) -/

section Operands
variable {i : Instr}

theorem rsIdxOf_encode {n : Nat} (h : i.rsOperand = some n) : rsIdxOf (encode i) = regIdx n := by
  cases i with
  | add | sub | and | or | slt => cases h; exact rsIdxOf_encodeR ..
  | addi | lw | sw | beq => cases h; exact rsIdxOf_encodeI ..
  | j | nop => cases h

theorem rtIdxOf_encode {n : Nat} (h : i.rtOperand = some n) : rtIdxOf (encode i) = regIdx n := by
  cases i with
  | add | sub | and | or | slt => cases h; exact rtIdxOf_encodeR ..
  | sw | beq => cases h; exact rtIdxOf_encodeI ..
  | addi | lw | j | nop => cases h

theorem immOf_encode {v : BitVec 16} (h : i.immOperand = some v) : immOf (encode i) = sext32 v := by
  cases i with
  | addi | lw | sw | beq => cases h; exact immOf_encodeI ..
  | add | sub | and | or | slt | j | nop => cases h

/-- The index the EX stage selects is the destination register. -/
theorem exDest_idStage_encode {k : BitVec 2} (h : i.destReg = some k) (r : Regs) (pc4 : Word) :
    exDest (idStage (ctlOf i) (encode i) r pc4) = k := by
  rw [destReg_eq i r pc4] at h
  split at h
  · exact Option.some.inj h
  · cases h

end Operands

/-- Settles O19: the tick completes, and with no flush ID/EX takes what ID read from the instruction's word. -/
theorem issueLatchesBundleAndOperands : Obligations.IssueLatchesBundleAndOperands := by
  intro i s hflush hsel hfetch
  have hnone : edgeFault s = none := (edgeFault_none_iff s).2 ⟨hsel, (fetchFails_false_iff s).2 (.inr hfetch)⟩
  refine ⟨_, exec_next_iff.2 ⟨hnone, rfl⟩, ?_⟩
  rw [commit_idEx_of_no_flush _ _ _ hflush]
  refine ⟨rfl, rfl, fun n hn => ?_, fun n hn => ?_, fun v hv => immOf_encode hv, ?_, fun k hk => exDest_idStage_encode hk _ _⟩
  · rw [idStage_rsData, rsIdxOf_encode hn, State.reg]
  · rw [idStage_rtData, rtIdxOf_encode hn, State.reg]
  · rintro a rfl
    exact addr26Field_encodeJ opJ a

/-! ### Contents with the same effect, stage by stage (R85, R90; 42_pipeline.md R100) -/

theorem SameIdEx.refl (E : IdEx) : SameIdEx E E := by
  constructor <;> intros <;> rfl

section ExStage
variable {E F : IdEx} (h : SameIdEx E F)
include h

/-- An ALU result that is written back or addresses memory is the same. -/
theorem SameIdEx.exAluResult_eq (hread : E.ctl.regWrite = true ∨ E.ctl.memRead = true ∨ E.ctl.memWrite = true) :
    exAluResult E = exAluResult F := by
  rw [exAluResult, exAluResult, exOperandB, exOperandB, h.rsData, h.rtData, h.imm, h.aluSrc hread, h.aluOp hread]

/-- The destination of a bundle that writes a register is the same. -/
theorem SameIdEx.exDest_eq (hwrite : E.ctl.regWrite = true) : exDest E = exDest F := by
  rw [exDest, exDest, h.rtIdx, h.rdIdx, h.regDst hwrite]

/-- The EX stage keeps the effect. -/
theorem SameIdEx.exMemNext : SameExMem (exMemNext exFlush E) (exMemNext exFlush F) where
  mem := congrArg₂ MemBits.mk h.memRead h.memWrite
  regWrite := h.regWrite
  dataSrcToReg := h.dataSrcToReg
  writeRegIdx := h.exDest_eq
  aluResult := h.exAluResult_eq
  writeData := h.rtData

end ExStage

section MemStage
variable {M N : ExMem} (h : SameExMem M N) (m : Memory)
include h

/-- The MEM stage keeps the effect: only a bundle that writes a register selects its data. -/
theorem SameExMem.memWbNext : SameMemWb (memWbNext m M) (memWbNext m N) where
  regWrite := h.regWrite
  data hwrite := by
    have halu : M.aluResult = N.aluResult := h.aluResult (.inl hwrite)
    have hsrc : M.wb.dataSrcToReg = N.wb.dataSrcToReg := h.dataSrcToReg hwrite
    simp only [wbData, memWbNext_wb, memWbNext_readData, memWbNext_aluResult, halu, hsrc]
  writeRegIdx := h.writeRegIdx

/-- Only a store's address and data reach memory. -/
theorem SameExMem.dmNext_eq : dmNext m M = dmNext m N := by
  cases hwrite : M.mem.memWrite with
  | false => rw [dmNext_of_idle (.inl hwrite), dmNext_of_idle (.inl (h.mem ▸ hwrite))]
  | true => rw [dmNext, dmNext, h.mem, h.aluResult (.inr (.inr hwrite)), h.writeData]

/-- Only a load's or store's address reaches the mark. -/
theorem SameExMem.dmErrorNow_eq : dmErrorNow m M = dmErrorNow m N := by
  rw [dmErrorNow, dmErrorNow, ← h.mem]
  cases haccess : (M.mem.memRead || M.mem.memWrite) with
  | false => rfl
  | true => rw [h.aluResult (.inr (by simpa using haccess))]

end MemStage

/-- Only the data and the index of a bundle that writes a register reach the register file. -/
theorem SameMemWb.wbRegs_eq {W V : MemWb} (h : SameMemWb W V) (r : Regs) : wbRegs W r = wbRegs V r := by
  have hreg (k : BitVec 2) : wbReg W r k = wbReg V r k := by
    rw [wbReg, wbReg, loadEnable, loadEnable, ← h.regWrite]
    cases hwrite : W.wb.regWrite with
    | false => rfl
    | true => rw [h.data hwrite, h.writeRegIdx hwrite]
  simp only [wbRegs, hreg]

/-! ### States with the same effect -/

namespace SameEffect
variable {s t : State} (h : SameEffect s t)
include h

theorem flush_eq : s.flush = t.flush := by
  rw [Bool.eq_iff_iff, flush_iff, flush_iff, h.idEx.branch, h.idEx.jump, h.idEx.rsData, h.idEx.rtData]

theorem bothSelects_eq : s.bothSelects = t.bothSelects := by
  rw [Bool.eq_iff_iff, bothSelects_iff, bothSelects_iff, h.idEx.branch, h.idEx.jump, h.idEx.rsData, h.idEx.rtData]

theorem edgeFault_eq : edgeFault s = edgeFault t := by
  rw [edgeFault, edgeFault, State.fetchFails, State.fetchFails, h.bothSelects_eq, h.flush_eq, h.pc]

/-- The pc + 4 in EX reaches the PC only under a taken branch or a jump, which both states hold alike. -/
theorem nextPc_eq (hsel : s.bothSelects = false) : s.nextPc = t.nextPc := by
  rw [Machine.nextPc_eq hsel, Machine.nextPc_eq (h.bothSelects_eq ▸ hsel), ← h.flush_eq, ← h.idEx.jump, h.pc, h.idEx.imm,
    h.idEx.addr26]
  cases hflush : s.flush with
  | true => rw [h.idEx.pcPlus4 (.inl ((flush_iff s).1 hflush).1)]
  | false =>
    cases hjump : s.idEx.ctl.jump with
    | true => rw [h.idEx.pcPlus4 (.inr hjump)]
    | false => simp

/-- IF/ID takes the same contents: the fetch and the flush are the same. -/
theorem commit_ifId_eq (ctl : Ctl) (w : Word) : (commit ctl w s).ifId = (commit ctl w t).ifId := by
  rw [commit_ifId, commit_ifId, State.fetched, State.fetched, h.flush_eq, h.pc, h.imem]

/-- ID/EX takes the same contents, don't-cares included: both states have the same word, bundle and registers in ID. -/
theorem commit_idEx_eq (ctl : Ctl) (w : Word) : (commit ctl w s).idEx = (commit ctl w t).idEx := by
  rw [commit_idEx, commit_idEx, h.flush_eq, h.regs, h.ifId]

/-- The clock edge keeps the effect. -/
theorem commit (hsel : s.bothSelects = false) (ctl : Ctl) (w : Word) : SameEffect (commit ctl w s) (commit ctl w t) where
  regs := by rw [commit_regs, commit_regs, ← h.regs, h.memWb.wbRegs_eq]
  pc := h.nextPc_eq hsel
  ifId := h.commit_ifId_eq ctl w
  idEx := h.commit_idEx_eq ctl w ▸ SameIdEx.refl _
  exMem := h.idEx.exMemNext
  memWb := by rw [commit_memWb, commit_memWb, h.dm]; exact h.exMem.memWbNext _
  imem := h.imem
  dm := by rw [commit_dm, commit_dm, h.dm, h.exMem.dmNext_eq]
  cycle := by rw [commit_cycle, commit_cycle, h.cycle]
  dmErrorSeen := by rw [commit_dmErrorSeen, commit_dmErrorSeen, h.dmErrorSeen, h.dm, h.exMem.dmErrorNow_eq]

end SameEffect

/-- A tick faults exactly with the model-only outcome of its cycle. -/
theorem tick_fault_iff {ctl : Ctl} {w : Word} {s : State} {f : Fault} : tick ctl w s = .fault f ↔ edgeFault s = some f := by
  unfold tick
  cases edgeFault s <;> simp

/-- Settles O55: both states tick with the same bundle and word, fault alike, and the clock edge keeps the effect. -/
theorem dontCaresHaveNoEffect : Obligations.DontCaresHaveNoEffect := by
  intro s t h
  rw [step_eq_tick, step_eq_tick, ← h.ifId]
  constructor
  · intro s' hstep
    obtain ⟨hnone, rfl⟩ := tick_next_iff.1 hstep
    have hsel : s.bothSelects = false := ((edgeFault_none_iff s).1 hnone).1
    exact ⟨_, tick_of_none (h.edgeFault_eq ▸ hnone), h.commit hsel _ _⟩
  · intro f hfault
    rw [tick_fault_iff, ← h.edgeFault_eq]
    exact tick_fault_iff.1 hfault

end Sys2Proof.Machine

/-! SUPPORT. The cycle of 42_pipeline.md: when a tick completes or faults, what each stage latches, the frame of a tick, and
the ticks in which the pipeline fills after launch. -/

namespace Sys2Proof.Machine

/-! ### When a tick completes (R112, 60_exceptions.md R130) -/

/-- When not both PC selects are set, a branch with equal operands is all it takes to flush. -/
theorem flush_iff_of_not_bothSelects {s : State} (hsel : s.bothSelects = false) :
    s.flush = true ↔ s.idEx.ctl.branch = true ∧ s.idEx.rsData = s.idEx.rtData := by
  rw [← Bool.not_eq_true, bothSelects_iff] at hsel
  rw [flush_iff]
  refine ⟨fun ⟨hbranch, heq, _⟩ => ⟨hbranch, heq⟩, fun ⟨hbranch, heq⟩ => ⟨hbranch, heq, ?_⟩⟩
  exact Bool.eq_false_of_not_eq_true fun hjump => hsel ⟨hbranch, heq, hjump⟩

/-- A flushing tick meets no model-only outcome: no jump is in EX, and the word it fetches is not latched. -/
theorem edgeFault_none_of_flush {s : State} (h : s.flush = true) : edgeFault s = none := by
  refine (edgeFault_none_iff s).2 ⟨?_, (fetchFails_false_iff s).2 (.inl h)⟩
  obtain ⟨-, -, hjump⟩ := (flush_iff s).1 h
  rw [← Bool.not_eq_true, bothSelects_iff, hjump]
  simp

/-- The fetch fails exactly when its word would be latched and lies past the memory. -/
theorem fetchFails_iff (s : State) : s.fetchFails = true ↔ s.flush = false ∧ 256 ≤ fetchIndex s.pc := by
  rw [← Bool.not_eq_false, fetchFails_false_iff, not_or, Bool.not_eq_true, Nat.not_lt]

/-- When not both PC selects are set, the failing fetch is the only fault. -/
theorem edgeFault_some_iff_of_not_bothSelects {s : State} (hsel : s.bothSelects = false) (f : Fault) :
    edgeFault s = some f ↔ f = .fetchOutOfRange ∧ s.fetchFails = true := by
  unfold edgeFault
  rw [hsel]
  cases s.fetchFails <;> simp [eq_comm]

theorem exec_completes_iff (i : Instr) (s : State) : (∃ t, exec i s = .next t) ↔ edgeFault s = none :=
  ⟨fun ⟨_, h⟩ => (exec_next_iff.1 h).1, fun h => ⟨_, exec_next_iff.2 ⟨h, rfl⟩⟩⟩

/-- Settles O21: the tick completes when neither cause of a fault is there, whatever the instruction in ID. -/
theorem execCompletesExactlyWhenTheFetchIsInRange : Obligations.ExecCompletesExactlyWhenTheFetchIsInRange := by
  intro i s
  rw [exec_completes_iff, edgeFault_none_iff, fetchFails_false_iff, ← bothSelects_iff, Bool.not_eq_true]
  exact and_congr_right fun hsel => or_congr_left (flush_iff_of_not_bothSelects hsel)

/-- Settles O54: the bundle in EX is exclusive, so not both selects are set, and then only the fetch can fail. -/
theorem exceptionVectorIsNeverSelected : Obligations.ExceptionVectorIsNeverSelected := by
  intro s hs
  obtain ⟨-, -, -, -, -, hex, -⟩ := s.inv_iff.1 hs
  have hsel : s.bothSelects = false := bothSelects_of_exclusive hex
  refine ⟨fun ⟨hb0, hb1⟩ => ?_, fun f hfault => ?_⟩
  · rw [State.bothSelects, hb0, hb1] at hsel
    cases hsel
  · rw [step_eq_tick, tick_fault_iff, edgeFault_some_iff_of_not_bothSelects hsel, fetchFails_iff] at hfault
    exact hfault

/-! ### IF and the PC (R94 to R98) -/

/-- Settles O17: with no flush IF/ID takes the fetched word, and the next step decodes IF/ID. -/
theorem wordAtThePcRunsOneTickLater : Obligations.WordAtThePcRunsOneTickLater := by
  intro s t hstep hflush
  obtain ⟨-, rfl⟩ := step_next_iff.1 hstep
  have hifId := commit_ifId_of_no_flush (decodeCtl s.ifId.instr) s.ifId.instr s hflush
  refine ⟨?_, fun i hi => stepRunsTheDecodedInstruction _ i ?_⟩
  · rw [hifId, State.fetched, pcPlus4_eq]
  · rw [hifId, fetched_instr, hi]

/-- Settles O27: a tick that answers has not both selects set, so the PC mux takes one of its other three inputs. -/
theorem pcTakesTheSelectedTarget : Obligations.PcTakesTheSelectedTarget := by
  intro s t hstep
  obtain ⟨hnone, rfl⟩ := step_next_iff.1 hstep
  obtain ⟨hsel, -⟩ := (edgeFault_none_iff s).1 hnone
  rw [commit_pc, nextPc_eq hsel]
  exact if_congr (flush_iff_of_not_bothSelects hsel) rfl rfl

/-! ### The flush (R98, R100, R109, R110) -/

/-- Settles O28: a taken branch flushes, so its tick completes, and both younger pipeline registers take a bubble. -/
theorem takenBranchRedirectsAndFlushes : Obligations.TakenBranchRedirectsAndFlushes := by
  intro s hbranch heq hjump
  have hflush : s.flush = true := (flush_iff s).2 ⟨hbranch, heq, hjump⟩
  have hnone := edgeFault_none_of_flush hflush
  refine ⟨_, step_next_iff.2 ⟨hnone, rfl⟩, ?_, ?_, ?_⟩
  · rw [commit_pc, nextPc_eq ((edgeFault_none_iff s).1 hnone).1, if_pos hflush, branchTarget]
  · rw [commit_ifId_of_flush _ _ _ hflush, pcPlus4_eq]
  · rw [commit_idEx_of_flush _ _ _ hflush, idExBubble_eq]

/-- The word in ID and its bundle reach ID/EX alone. -/
theorem commit_eq_with_idEx (ctl ctl' : Ctl) (w w' : Word) (s : State) :
    commit ctl w s = { commit ctl' w' s with idEx := (commit ctl w s).idEx } := rfl

/-- On a flush the word in ID and its bundle reach nothing: ID/EX takes the bubble. -/
theorem commit_eq_of_flush {s : State} (h : s.flush = true) (ctl ctl' : Ctl) (w w' : Word) :
    commit ctl w s = commit ctl' w' s := by
  rw [commit_eq_with_idEx ctl ctl' w w', commit_idEx_of_flush _ _ _ h, ← commit_idEx_of_flush ctl' w' _ h]

/-- A flushing edge reads neither the word in IF/ID nor the instruction memory: only IF/ID could take a word read there. -/
theorem commit_squashed {s : State} (h : s.flush = true) (ctl : Ctl) (w word : Word) (im : Imem) :
    commit ctl w { s with ifId := { s.ifId with instr := word }, imem := im } =
      { commit ctl w s with imem := im } := by
  have hifId : (commit ctl w { s with ifId := { s.ifId with instr := word }, imem := im }).ifId = (commit ctl w s).ifId := by
    rw [commit_ifId_of_flush _ _ _ h]
    exact commit_ifId_of_flush _ _ _ h
  exact congrArg (fun ifId => { commit ctl w s with ifId := ifId, imem := im }) hifId

/-- Settles O29: the flush is decided in EX, so both ticks flush; then neither the word nor its bundle is latched. -/
theorem squashedInstructionsLeaveNoTrace : Obligations.SquashedInstructionsLeaveNoTrace := by
  intro s word im hflush
  refine ⟨_, step_next_iff.2 ⟨edgeFault_none_of_flush hflush, rfl⟩, ?_⟩
  have hflush' : State.flush { s with ifId := { s.ifId with instr := word }, imem := im } = true := hflush
  refine step_next_iff.2 ⟨edgeFault_none_of_flush hflush', ?_⟩
  rw [← commit_squashed hflush _ _ word im]
  exact commit_eq_of_flush hflush' ..

/-! ### EX, MEM and WB (R101 to R108) -/

theorem exOperandB_eq (E : IdEx) : exOperandB E = if E.ctl.aluSrc then E.imm else E.rtData := rfl

/-- SLT's result, 0 or 1, is the signed comparison. -/
theorem compute_slt_eq_ite (a b : Word) (cin : Bool) :
    (compute a b cin .slt).1 = if a.toInt < b.toInt then 1#32 else 0#32 := by
  rw [compute_slt, lessThan_sub]
  by_cases h : a.toInt < b.toInt <;> simp [h]

/-- Settles O26: EX/MEM's fields are wires of the EX stage; the ALU result is read off operation by operation. -/
theorem exStageLatchesTheAluResult : Obligations.ExStageLatchesTheAluResult := by
  intro s t hstep
  obtain ⟨-, rfl⟩ := step_next_iff.1 hstep
  refine ⟨rfl, rfl, rfl, rfl, ?_⟩
  rintro b rfl
  rw [commit_exMem, exMemNext_aluResult, exAluResult, exOperandB_eq, cinBase]
  cases s.idEx.ctl.aluOp with
  | and | or | xor | nor | null => rfl
  | add => exact compute_add ..
  | sub => exact compute_sub ..
  | slt => exact compute_slt_eq_ite ..

/-- Settles O25: MEM/WB samples the memory before the edge, and the memory takes the store in MEM. -/
theorem memStageReadsThenStores : Obligations.MemStageReadsThenStores := by
  intro s t hstep hdm
  obtain ⟨-, rfl⟩ := step_next_iff.1 hstep
  refine ⟨rfl, fun a => ?_⟩
  rw [commit_dm, dmByte_dmNext hdm, laneByte_eq_shift]
  simp only [dmError_false_iff, and_assoc]

/-- Settles O24: the register file's write port, with its data as the multiplexer of R108. -/
theorem writeBackLoadsOneRegister : Obligations.WriteBackLoadsOneRegister := by
  intro s t hstep k
  obtain ⟨-, rfl⟩ := step_next_iff.1 hstep
  exact reg_commit _ _ s k

/-! ### The frame of one tick (R111) -/

/-- Settles O48: whether a tick completes does not depend on the instruction in ID, which reaches ID/EX alone. -/
theorem issueChangesOnlyIdEx : Obligations.IssueChangesOnlyIdEx := by
  intro i s t hexec
  obtain ⟨hnone, rfl⟩ := exec_next_iff.1 hexec
  exact ⟨_, exec_next_iff.2 ⟨hnone, rfl⟩, commit_eq_with_idEx .., fun hflush => commit_eq_of_flush hflush ..⟩

/-- Settles O49: each clause is the case of the write-back, or of the memory write, in which nothing is written. -/
theorem tickChangesOnlyWhatItsStagesWrite : Obligations.TickChangesOnlyWhatItsStagesWrite := by
  intro i s t hexec hdm
  obtain ⟨-, rfl⟩ := exec_next_iff.1 hexec
  refine ⟨fun k hk => ?_, fun a ha => ?_, rfl, fun hmark => ?_⟩
  · rw [reg_commit, if_neg]
    rintro ⟨hwrite, hidx⟩
    simp [hwrite, hidx] at hk
  · rw [commit_dm, dmByte_dmNext hdm, if_neg]
    rintro ⟨hwrite, herr, hlo, hhi⟩
    simp only [hwrite, herr, reduceCtorEq, false_or] at ha
    omega
  · rw [commit_dmErrorSeen, hmark, Bool.true_or]

/-! ### The first ticks (R93; 92_eei_decisions.md D10) -/

/-- Without reg_write the register file is as before. -/
theorem wbRegs_of_idle {W : MemWb} (h : W.wb.regWrite = false) (r : Regs) : wbRegs W r = r := by
  have hreg (k : BitVec 2) : wbReg W r k = regRead r k := by rw [wbReg, loadEnable, h]; rfl
  simp only [wbRegs, hreg]
  ext i hi
  have : i = 0 ∨ i = 1 ∨ i = 2 ∨ i = 3 := by omega
  rcases this with rfl | rfl | rfl | rfl <;> rfl

/-- What stands `n` ticks after a launch at `s₀`, whose pipeline holds bubbles only and whose PC is 0: the first instruction
is one stage further with each tick, and until it can write, the registers, the data memory and the PC's sequence go on. -/
structure Filling (s₀ : State) (n : Nat) (s : State) : Prop where
  regs : n ≤ 4 → s.regs = s₀.regs
  dm : n ≤ 3 → s.dm = s₀.dm
  pc : n ≤ 2 → s.pc.toNat = 4 * n
  wbIdle : n ≤ 3 → s.memWb.wb.regWrite = false
  memIdle : n ≤ 2 → s.exMem.mem.memWrite = false ∧ s.exMem.wb.regWrite = false
  exBubble : n ≤ 1 → s.idEx.ctl = ctlNop
  idNop : n = 0 → s.ifId.instr = 0#32

theorem filling_launch (program : List Word) (gprInit : Regs) (dmInit : List Byte) :
    Filling (launch program gprInit dmInit) 0 (launch program gprInit dmInit) where
  regs _ := rfl
  dm _ := rfl
  pc _ := rfl
  wbIdle _ := rfl
  memIdle _ := ⟨rfl, rfl⟩
  exBubble _ := rfl
  idNop _ := rfl

/-- Each stage is idle one tick after the stage before it was. -/
theorem Filling.step {s₀ s t : State} {n : Nat} (F : Filling s₀ n s) (hstep : step s = .next t) : Filling s₀ (n + 1) t := by
  obtain ⟨-, rfl⟩ := step_next_iff.1 hstep
  refine ⟨fun hn => ?_, fun hn => ?_, fun hn => ?_, fun hn => ?_, fun hn => ?_, fun hn => ?_, nofun⟩
  · rw [commit_regs, wbRegs_of_idle (F.wbIdle (by omega)), F.regs (by omega)]
  · rw [commit_dm, dmNext_of_idle (.inl (F.memIdle (by omega)).1), F.dm (by omega)]
  · have hctl := F.exBubble (by omega)
    rw [commit_pc, nextPc_of_clear (congrArg Ctl.branch hctl) (congrArg Ctl.jump hctl), BitVec.toNat_add, F.pc (by omega),
      BitVec.toNat_ofNat]
    omega
  · exact (F.memIdle (by omega)).2
  · have hctl := F.exBubble (by omega)
    exact ⟨congrArg Ctl.memWrite hctl, congrArg Ctl.regWrite hctl⟩
  · rw [commit_idEx_of_no_flush _ _ _ (flush_of_no_branch (congrArg Ctl.branch (F.exBubble (by omega)))), idStage_ctl,
      F.idNop (by omega), decodeCtl_of_ok decode_nop]
    rfl

/-- What holds at the start, and is carried by every step from one number of ticks to the next, holds after `n` ticks. -/
theorem run_induction {P : Nat → State → Prop} (hstep : ∀ k s t, P k s → step s = .next t → P (k + 1) t)
    {n : Nat} {s t : State} (hs : P 0 s) (hrun : core.run n s = .next t) : P n t := by
  induction n generalizing P s with
  | zero =>
    cases hrun
    exact hs
  | succ n ih =>
    simp only [Host.Core.run] at hrun
    split at hrun
    · next u hu => exact ih (P := fun k => P (k + 1)) (fun k => hstep (k + 1)) (hstep 0 s u hs hu) hrun
    · cases hrun
    · cases hrun

/-- Settles O57: the pipeline fills from the launch state. -/
theorem firstTicksRetireNothing : Obligations.FirstTicksRetireNothing := by
  intro program gprInit dmInit n t hrun
  have F : Filling (launch program gprInit dmInit) n t :=
    run_induction (fun _ _ _ F hstep => F.step hstep) (filling_launch program gprInit dmInit) hrun
  exact ⟨F.regs, F.dm, F.pc⟩

end Sys2Proof.Machine

/-! SUPPORT. The arithmetic and logic instructions of 43_alu_instructions.md: the ALU result of an instruction in terms of
its operands, its way to the destination register, and the frame of an EX tick that transfers no control. -/

namespace Sys2Proof.Machine

/-! ### The ALU result of an instruction (42_pipeline.md R99, R101) -/

section Result
variable {i : Instr} {rs : Nat} (hrs : i.rsOperand = some rs) (s : State) (pc4 : Word)
include hrs

/-- With alu_src 0 the ALU combines the two registers that ID read. -/
theorem exAluResult_idStage_of_register {rt : Nat} (hrt : i.rtOperand = some rt) (hsrc : (ctlOf i).aluSrc = false) :
    exAluResult (idStage (ctlOf i) (encode i) s.regs pc4) =
      (compute (s.reg (regIdx rs)) (s.reg (regIdx rt)) false (ctlOf i).aluOp).1 := by
  rw [exAluResult, exOperandB, idStage_ctl, hsrc, select_false, idStage_rsData, idStage_rtData, rsIdxOf_encode hrs,
    rtIdxOf_encode hrt, State.reg, State.reg, cinBase]

/-- With alu_src 1 the ALU combines the rs register with the sign-extended immediate. -/
theorem exAluResult_idStage_of_immediate {imm : BitVec 16} (himm : i.immOperand = some imm)
    (hsrc : (ctlOf i).aluSrc = true) :
    exAluResult (idStage (ctlOf i) (encode i) s.regs pc4) =
      (compute (s.reg (regIdx rs)) (sext32 imm) false (ctlOf i).aluOp).1 := by
  rw [exAluResult, exOperandB, idStage_ctl, hsrc, select_true, idStage_rsData, idStage_imm, rsIdxOf_encode hrs,
    immOf_encode himm, State.reg, cinBase]

end Result

/-! ### From the ALU to the destination register (R113) -/

section WriteBack
variable {i : Instr} {s : State} {k : BitVec 2}

/-- An instruction with a destination register has a bundle that writes it. -/
theorem regWrite_of_destReg (hdest : i.destReg = some k) : (ctlOf i).regWrite = true := by
  rw [destReg_eq i State.reset.regs 0] at hdest
  exact (Option.ite_none_right_eq_some.1 hdest).1

/-- An instruction that takes its write-back data from the ALU leaves its ALU result in its destination register. -/
theorem Life.reg_destReg_eq {d e m w : State} (L : Life i s d e m w) (hdest : i.destReg = some k)
    (hsrc : (ctlOf i).dataSrcToReg = false) :
    w.reg k = exAluResult (idStage (ctlOf i) (encode i) s.regs s.ifId.pcPlus4) := by
  rw [L.reg_eq, L.idEx_eq, if_pos ⟨regWrite_of_destReg hdest, exDest_idStage_encode hdest ..⟩, hsrc, select_false]

/-- The shared form of the ALU instructions: through every life the destination register takes the value `v` of the ALU, and
from a clear state the life completes with it. -/
theorem aluInstruction_writes {v : Word} (hdest : i.destReg = some k) (hsrc : (ctlOf i).dataSrcToReg = false)
    (hbranch : (ctlOf i).branch = false) (hjump : (ctlOf i).jump = false)
    (hv : exAluResult (idStage (ctlOf i) (encode i) s.regs s.ifId.pcPlus4) = v) :
    (∀ d e m w, Life i s d e m w → w.reg k = v) ∧
    (ClearForFour s → ∃ d e m w, exec i s = .next d ∧ Life i s d e m w ∧ w.reg k = v) := by
  have hreg (d e m w : State) (L : Life i s d e m w) : w.reg k = v := (L.reg_destReg_eq hdest hsrc).trans hv
  refine ⟨hreg, fun C => ?_⟩
  obtain ⟨d, e, m, w, hexec, L⟩ := C.life i hbranch hjump
  exact ⟨d, e, m, w, hexec, L, hreg d e m w L⟩

/-- The R-type instructions: the value is the ALU's of the two registers that ID read (R114 to R118). -/
theorem rType_writes {rs rt : Nat} {op : AluOp} {v : Word} (hctl : ctlOf i = ctlRType op) (hdest : i.destReg = some k)
    (hrs : i.rsOperand = some rs) (hrt : i.rtOperand = some rt)
    (hv : (compute (s.reg (regIdx rs)) (s.reg (regIdx rt)) false op).1 = v) :
    (∀ d e m w, Life i s d e m w → w.reg k = v) ∧
    (ClearForFour s → ∃ d e m w, exec i s = .next d ∧ Life i s d e m w ∧ w.reg k = v) := by
  have hresult : exAluResult (idStage (ctlOf i) (encode i) s.regs s.ifId.pcPlus4) = v := by
    rw [exAluResult_idStage_of_register hrs s _ hrt (congrArg Ctl.aluSrc hctl), hctl]
    exact hv
  exact aluInstruction_writes hdest (congrArg Ctl.dataSrcToReg hctl) (congrArg Ctl.branch hctl) (congrArg Ctl.jump hctl)
    hresult

end WriteBack

/-- Settles O32: ADD is an R-type instruction with the ALU's sum. -/
theorem addWritesTheSum : Obligations.AddWritesTheSum :=
  fun _ _ _ _ _ => rType_writes rfl rfl rfl rfl (compute_add ..)

/-- Settles O33: SUB is an R-type instruction with the ALU's difference. -/
theorem subWritesTheDifference : Obligations.SubWritesTheDifference :=
  fun _ _ _ _ _ => rType_writes rfl rfl rfl rfl (compute_sub ..)

/-- Settles O34: AND is an R-type instruction with the ALU's conjunction. -/
theorem andWritesTheConjunction : Obligations.AndWritesTheConjunction :=
  fun _ _ _ _ _ => rType_writes rfl rfl rfl rfl (compute_and ..)

/-- Settles O35: OR is an R-type instruction with the ALU's disjunction. -/
theorem orWritesTheDisjunction : Obligations.OrWritesTheDisjunction :=
  fun _ _ _ _ _ => rType_writes rfl rfl rfl rfl (compute_or ..)

/-- Settles O36: SLT is an R-type instruction with the ALU's signed comparison. -/
theorem sltWritesTheSignedComparison : Obligations.SltWritesTheSignedComparison :=
  fun _ _ _ _ _ => rType_writes rfl rfl rfl rfl (compute_slt_eq_ite ..)

/-- Settles O37: ADDI adds the immediate, and its destination is rt. -/
theorem addiWritesTheSumWithTheImmediate : Obligations.AddiWritesTheSumWithTheImmediate := by
  intro rt rs imm s
  refine aluInstruction_writes rfl rfl rfl rfl ?_
  rw [exAluResult_idStage_of_immediate rfl s _ rfl rfl]
  exact compute_add ..

/-! ### The frame of the EX tick (R113; 42_pipeline.md R95, R98, R100) -/

/-- Only BEQ's bundle branches. -/
theorem ctlOf_branch_of_ne_beq {i : Instr} (h : i.mnemonic ≠ .BEQ) : (ctlOf i).branch = false := by
  cases i with
  | beq => exact absurd rfl h
  | add | sub | and | or | slt | addi | lw | sw | j | nop => rfl

/-- Only J's bundle jumps. -/
theorem ctlOf_jump_of_ne_j {i : Instr} (h : i.mnemonic ≠ .J) : (ctlOf i).jump = false := by
  cases i with
  | j => exact absurd rfl h
  | add | sub | and | or | slt | addi | lw | sw | beq | nop => rfl

/-- Settles O46: the bundle in EX is the instruction's, which neither branches nor jumps, so nothing is flushed and the PC
moves on. -/
theorem onlyBranchesAndJumpsMoveThePc : Obligations.OnlyBranchesAndJumpsMoveThePc := by
  intro i s d e m w L hbeq hj
  have hctl : d.idEx.ctl = ctlOf i := by rw [L.idEx_eq, idStage_ctl]
  have hbranch : d.idEx.ctl.branch = false := hctl ▸ ctlOf_branch_of_ne_beq hbeq
  have hjump : d.idEx.ctl.jump = false := hctl ▸ ctlOf_jump_of_ne_j hj
  have hflush : d.flush = false := flush_of_no_branch hbranch
  obtain ⟨-, rfl, -⟩ := L.edges
  refine ⟨?_, ?_, commit_idEx_of_no_flush _ _ _ hflush⟩
  · rw [commit_pc, nextPc_of_clear hbranch hjump]
  · rw [commit_ifId_of_no_flush _ _ _ hflush, State.fetched, pcPlus4_eq]

end Sys2Proof.Machine

/-! SUPPORT. The load and the store of 44_memory_instructions.md: the memory's outputs at an effective address, and what the
MEM and WB ticks of an access leave in the destination register, the memory and the mark. -/

namespace Sys2Proof.Machine

/-! ### The memory's outputs at an address (20_memory.md R38, R44, R45) -/

theorem dmError_eq_not_decide (addr : Word) : dmError addr = !decide (addr.toNat % 4 = 0 ∧ addr.toNat < 4096) := by
  simp only [← dmError_false_iff, Bool.decide_eq_false, Bool.not_not]

theorem memRead_word (m : Memory) (addr : Word) :
    (memRead m addr).1 = if addr.toNat % 4 = 0 ∧ addr.toNat < 4096 then dmWord m addr.toNat else 0#32 := by
  simp only [← dmError_false_iff]
  split
  · next hok => rw [memRead_of_ok hok]
  · next herr => rw [memRead_of_error (Bool.not_eq_false _ ▸ herr)]

/-! ### The MEM tick of an access (R121; 60_exceptions.md R129) -/

/-- The bundle of an instruction that accesses memory reads or writes it. -/
theorem memRead_or_memWrite_of_accessAddress {i : Instr} {s : State} {ea : Word} (h : i.accessAddress s = some ea) :
    ((ctlOf i).memRead || (ctlOf i).memWrite) = true := by
  cases i with
  | lw | sw => rfl
  | add | sub | and | or | slt | addi | beq | j | nop => cases h

section Access
variable {i : Instr} {s d e m w : State} {ea : Word} (L : Life i s d e m w)
include L

/-- At its EX tick EX/MEM takes the memory bits of its bundle. -/
theorem Life.memBits_eq : e.exMem.mem = { memRead := (ctlOf i).memRead, memWrite := (ctlOf i).memWrite } := by
  rw [L.exMem_eq, L.idEx_eq]
  rfl

/-- At its EX tick EX/MEM takes the rt register that ID read, the data of a store. -/
theorem Life.writeData_eq {rt : Nat} (hrt : i.rtOperand = some rt) : e.exMem.writeData = s.reg (regIdx rt) := by
  rw [L.exMem_eq, L.idEx_eq, exMemNext_writeData, idStage_rtData, rtIdxOf_encode hrt, State.reg]

variable (hea : i.accessAddress s = some ea)
include hea

/-- In MEM the access has its effective address on the address lines. -/
theorem Life.aluResult_eq_accessAddress : e.exMem.aluResult = ea := by
  rw [L.exMem_eq, L.idEx_eq, exMemNext_aluResult, exAluResult_of_accessAddress hea]

/-- The MEM tick of an access sets the mark exactly on a bad address. -/
theorem Life.dmErrorSeen_of_accessAddress : m.dmErrorSeen = (e.dmErrorSeen || dmError ea) := by
  rw [L.dmErrorSeen_eq, dmErrorNow, L.memBits_eq, memRead_or_memWrite_of_accessAddress hea, Bool.true_and, memRead_error,
    L.aluResult_eq_accessAddress hea]

/-- A load leaves in its destination register what the memory outputs at its MEM tick. -/
theorem Life.reg_of_load {k : BitVec 2} (hdest : i.destReg = some k) (hsrc : (ctlOf i).dataSrcToReg = true) :
    w.reg k = (memRead e.dm ea).1 := by
  rw [L.reg_eq, L.idEx_eq, if_pos ⟨regWrite_of_destReg hdest, exDest_idStage_encode hdest ..⟩, hsrc, select_true,
    exAluResult_of_accessAddress hea]

end Access

/-! ### LW (R122) -/

theorem Life.lw_reg {rt rs : Nat} {imm : BitVec 16} {s d e m w : State} (L : Life (.lw rt imm rs) s d e m w) {ea : Word}
    (hea : (Instr.lw rt imm rs).accessAddress s = some ea) :
    w.reg (regIdx rt) = if ea.toNat % 4 = 0 ∧ ea.toNat < 4096 then dmWord e.dm ea.toNat else 0#32 := by
  rw [L.reg_of_load hea rfl rfl, memRead_word]

/-- Settles O38: the destination register takes the memory's output at the effective address. -/
theorem lwLoadsTheWordOrZero : Obligations.LwLoadsTheWordOrZero := by
  intro rt rs imm s ea hsum
  have hea : (Instr.lw rt imm rs).accessAddress s = some ea := congrArg some hsum.symm
  refine ⟨fun d e m w L => ⟨L.lw_reg hea, ?_⟩, fun C => ?_⟩
  · rw [L.dmErrorSeen_of_accessAddress hea, dmError_eq_not_decide]
  · obtain ⟨d, e, m, w, hexec, L⟩ := C.life (.lw rt imm rs) rfl rfl
    exact ⟨d, e, m, w, hexec, L, L.lw_reg hea⟩

/-! ### SW (R123) -/

section Store
variable {rt rs : Nat} {imm : BitVec 16} {s d e m w : State} (L : Life (.sw rt imm rs) s d e m w) (hdm : s.dm.wf = true)
  {ea : Word} (hea : (Instr.sw rt imm rs).accessAddress s = some ea)
include L hdm hea

/-- Each byte after the MEM tick of a store. -/
theorem Life.sw_dmByte (a : Nat) :
    dmByte m.dm a =
      if (ea.toNat % 4 = 0 ∧ ea.toNat < 4096) ∧ ea.toNat ≤ a ∧ a < ea.toNat + 4 then
        (s.reg (regIdx rt) >>> (24 - 8 * (a - ea.toNat))).setWidth 8
      else dmByte e.dm a := by
  have hwrite : e.exMem.mem.memWrite = true := congrArg MemBits.memWrite L.memBits_eq
  rw [L.dm_eq, dmByte_dmNext (L.dm_wf hdm), L.aluResult_eq_accessAddress hea, L.writeData_eq rfl, laneByte_eq_shift]
  simp only [hwrite, true_and, dmError_false_iff]

/-- The word at a good address after the MEM tick of a store is the stored one. -/
theorem Life.sw_dmWord (hok : dmError ea = false) : dmWord m.dm ea.toNat = s.reg (regIdx rt) := by
  have hwrite : e.exMem.mem.memWrite = true := congrArg MemBits.memWrite L.memBits_eq
  have haddr := L.aluResult_eq_accessAddress hea
  rw [L.dm_eq, dmNext_of_store hwrite (haddr ▸ hok), haddr, L.writeData_eq rfl,
    dmWord_writeLanes_same (L.dm_wf hdm) (lastByte_lt_of_ok hok)]

end Store

/-- Settles O39: the memory takes the store's four bytes, which are the register's, or on a bad address none. -/
theorem swStoresTheWordOrNothing : Obligations.SwStoresTheWordOrNothing := by
  intro rt rs imm s ea hsum hdm
  have hea : (Instr.sw rt imm rs).accessAddress s = some ea := congrArg some hsum.symm
  refine ⟨fun d e m w L => ⟨L.sw_dmByte hdm hea, ?_⟩, fun C => ?_⟩
  · rw [L.dmErrorSeen_of_accessAddress hea, dmError_eq_not_decide]
  · obtain ⟨d, e, m, w, hexec, L⟩ := C.life (.sw rt imm rs) rfl rfl
    exact ⟨d, e, m, w, hexec, L, fun hgood => L.sw_dmWord hdm hea ((dmError_false_iff ea).2 hgood)⟩

end Sys2Proof.Machine

/-! SUPPORT. BEQ, J and NOP of 45_control_instructions.md: what EX holds after a transfer's ID tick, the two younger
instructions when nothing is flushed, and the completion of the two ticks up to EX. -/

namespace Sys2Proof.Machine

/-! ### From ID to EX (R125, R126; 42_pipeline.md R99) -/

section IdTick
variable {i : Instr} {s d : State} (hflush : s.flush = false) (hexec : exec i s = .next d)
include hflush hexec

/-- After the ID tick of an instruction that is not squashed, ID/EX holds its bundle and operands. -/
theorem idEx_of_unsquashed : d.idEx = idStage (ctlOf i) (encode i) s.regs s.ifId.pcPlus4 := by
  obtain ⟨-, rfl⟩ := exec_next_iff.1 hexec
  exact commit_idEx_of_no_flush _ _ _ hflush

theorem ctl_of_unsquashed : d.idEx.ctl = ctlOf i := by
  rw [idEx_of_unsquashed hflush hexec, idStage_ctl]

theorem pcPlus4_of_unsquashed : d.idEx.pcPlus4 = s.ifId.pcPlus4 := by
  rw [idEx_of_unsquashed hflush hexec, idStage_pcPlus4]

theorem rsData_of_unsquashed {n : Nat} (hrs : i.rsOperand = some n) : d.idEx.rsData = s.reg (regIdx n) := by
  rw [idEx_of_unsquashed hflush hexec, idStage_rsData, rsIdxOf_encode hrs, State.reg]

theorem rtData_of_unsquashed {n : Nat} (hrt : i.rtOperand = some n) : d.idEx.rtData = s.reg (regIdx n) := by
  rw [idEx_of_unsquashed hflush hexec, idStage_rtData, rtIdxOf_encode hrt, State.reg]

theorem imm_of_unsquashed {v : BitVec 16} (himm : i.immOperand = some v) : d.idEx.imm = v.signExtend 32 := by
  rw [idEx_of_unsquashed hflush hexec, idStage_imm, immOf_encode himm, sext32]

end IdTick

/-! ### The two younger instructions (42_pipeline.md R98, R100) -/

/-- When EX does not flush, the fetched word enters IF/ID and the instruction in ID enters ID/EX. -/
theorem younger_continue_of_no_flush {d e : State} (hflush : d.flush = false) (hstep : step d = .next e) :
    e.ifId = { instr := imemRead d.imem (fetchIndex d.pc), pcPlus4 := d.pc + 4#32 } ∧
      e.idEx = idStage (decodeCtl d.ifId.instr) d.ifId.instr d.regs d.ifId.pcPlus4 := by
  obtain ⟨-, rfl⟩ := step_next_iff.1 hstep
  refine ⟨?_, commit_idEx_of_no_flush _ _ _ hflush⟩
  rw [commit_ifId_of_no_flush _ _ _ hflush, State.fetched, pcPlus4_eq]

/-! ### Two ticks from a clear state -/

/-- From a clear state the ID and EX ticks of every instruction complete: its bundle is exclusive, so it never sets both PC
selects, and both fetches are in range. -/
theorem ClearForTwo.two_ticks {s : State} (C : ClearForTwo s) (i : Instr) :
    s.flush = false ∧ ∃ d e, exec i s = .next d ∧ step d = .next e ∧ d.pc = s.pc + 4#32 := by
  obtain ⟨hexec, hflush, hpc, hfetch⟩ := C.exec_eq i
  have hsel : (commit (ctlOf i) (encode i) s).bothSelects = false :=
    bothSelects_of_exclusive (commit_idEx_exclusive (ctlOf_exclusive i) _ s)
  have hnone : edgeFault (commit (ctlOf i) (encode i) s) = none :=
    (edgeFault_none_iff _).2 ⟨hsel, (fetchFails_false_iff _).2 (.inr (hpc ▸ hfetch))⟩
  exact ⟨hflush, _, _, hexec, step_next_iff.2 ⟨hnone, rfl⟩, hpc⟩

/-! ### BEQ (R125) -/

section Branch
variable {rs rt : Nat} {off : BitVec 16} {s d : State} (hflush : s.flush = false)
  (hexec : exec (.beq rs rt off) s = .next d)
include hflush hexec

/-- With equal registers the EX tick of BEQ is that of a taken branch in EX. -/
theorem beq_taken (heq : s.reg (regIdx rs) = s.reg (regIdx rt)) :
    ∃ e, step d = .next e ∧ e.pc = s.ifId.pcPlus4 + (off.signExtend 32 <<< 2) ∧
      e.ifId = { instr := 0#32, pcPlus4 := d.pc + 4#32 } ∧ e.idEx = { IdEx.zero with pcPlus4 := d.ifId.pcPlus4 } := by
  have hctl : d.idEx.ctl = ctlBeq := ctl_of_unsquashed hflush hexec
  have hdata : d.idEx.rsData = d.idEx.rtData := by
    rw [rsData_of_unsquashed hflush hexec rfl, rtData_of_unsquashed hflush hexec rfl, heq]
  rw [← pcPlus4_of_unsquashed hflush hexec, ← imm_of_unsquashed hflush hexec rfl]
  exact takenBranchRedirectsAndFlushes d (congrArg Ctl.branch hctl) hdata (congrArg Ctl.jump hctl)

/-- With different registers the operands in EX differ, so the branch is not taken. -/
theorem beq_operands_ne (hne : s.reg (regIdx rs) ≠ s.reg (regIdx rt)) : d.idEx.rsData ≠ d.idEx.rtData := by
  rw [rsData_of_unsquashed hflush hexec rfl, rtData_of_unsquashed hflush hexec rfl]
  exact hne

/-- With different registers the EX tick of BEQ moves the PC to the next word. -/
theorem beq_not_taken_pc {e : State} (hne : s.reg (regIdx rs) ≠ s.reg (regIdx rt)) (hstep : step d = .next e) :
    e.pc = d.pc + 4#32 := by
  have hjump : ¬ d.idEx.ctl.jump = true := by
    rw [ctl_of_unsquashed hflush hexec]
    exact Bool.false_ne_true
  rw [pcTakesTheSelectedTarget d e hstep, if_neg fun h => beq_operands_ne hflush hexec hne h.2, if_neg hjump]

end Branch

/-- Settles O40: from a clear state BEQ is not squashed, so the second part is the first one's. -/
theorem beqTakenRedirectsAndSquashesTwo : Obligations.BeqTakenRedirectsAndSquashesTwo := by
  intro rs rt off s heq
  refine ⟨fun d hflush hexec => beq_taken hflush hexec heq, fun C => ?_⟩
  obtain ⟨hexec, hflush, -⟩ := C.exec_eq (.beq rs rt off)
  obtain ⟨e, hstep, hpc, -⟩ := beq_taken hflush hexec heq
  exact ⟨_, e, hexec, hstep, hpc⟩

/-- Settles O41: different operands in EX flush nothing, and select neither target. -/
theorem beqNotTakenHasNoEffect : Obligations.BeqNotTakenHasNoEffect := by
  intro rs rt off s hne
  constructor
  · intro d e hflush hexec hstep
    have hno : d.flush = false := by
      rw [← Bool.not_eq_true, flush_iff]
      rintro ⟨-, hdata, -⟩
      exact beq_operands_ne hflush hexec hne hdata
    exact ⟨beq_not_taken_pc hflush hexec hne hstep, younger_continue_of_no_flush hno hstep⟩
  · intro C
    obtain ⟨hflush, d, e, hexec, hstep, hpc⟩ := C.two_ticks (.beq rs rt off)
    refine ⟨d, e, hexec, hstep, ?_⟩
    rw [beq_not_taken_pc hflush hexec hne hstep, hpc, BitVec.add_assoc]
    rfl

/-! ### J (R126, R153) -/

/-- The EX tick of J takes the jump target, made of IF/ID's pc + 4 at its ID tick and its own address field. -/
theorem j_pc {addr26 : BitVec 26} {s d e : State} (hflush : s.flush = false) (hexec : exec (.j addr26) s = .next d)
    (hstep : step d = .next e) : e.pc = jumpTarget s.ifId.pcPlus4 addr26 := by
  have hctl : d.idEx.ctl = ctlJ := ctl_of_unsquashed hflush hexec
  have hjump : d.idEx.ctl.jump = true := congrArg Ctl.jump hctl
  have haddr : d.idEx.addr26 = addr26 := by
    rw [idEx_of_unsquashed hflush hexec]
    exact addr26Field_encodeJ opJ addr26
  have hbranch : ¬ d.idEx.ctl.branch = true := by
    rw [hctl]
    exact Bool.false_ne_true
  rw [pcTakesTheSelectedTarget d e hstep, if_neg fun h => hbranch h.1, if_pos hjump,
    pcPlus4_of_unsquashed hflush hexec, haddr, jumpTarget]

/-- Settles O42: the bundle of J jumps but does not branch, so the PC takes the target and nothing is flushed. -/
theorem jumpRedirectsAfterTwoDelaySlots : Obligations.JumpRedirectsAfterTwoDelaySlots := by
  intro addr26 s
  simp only [← jumpTarget_toNat, BitVec.toNat_inj]
  constructor
  · intro d e hflush hexec hstep
    have hno : d.flush = false := flush_of_no_branch (congrArg Ctl.branch (ctl_of_unsquashed hflush hexec))
    exact ⟨j_pc hflush hexec hstep, younger_continue_of_no_flush hno hstep⟩
  · intro C
    obtain ⟨hflush, d, e, hexec, hstep, -⟩ := C.two_ticks (.j addr26)
    exact ⟨d, e, hexec, hstep, j_pc hflush hexec hstep⟩

/-! ### NOP (R127) -/

section NoAccess
variable {i : Instr} {s d e m w : State} (L : Life i s d e m w)
include L

/-- An instruction whose bundle writes no memory leaves the data memory at its MEM tick. -/
theorem Life.dm_eq_of_no_memWrite (hwrite : (ctlOf i).memWrite = false) : m.dm = e.dm := by
  rw [L.dm_eq, dmNext_of_idle (.inl ?_)]
  rw [L.memBits_eq, hwrite]

/-- An instruction whose bundle accesses no memory leaves the mark at its MEM tick. -/
theorem Life.dmErrorSeen_eq_of_no_access (hread : (ctlOf i).memRead = false) (hwrite : (ctlOf i).memWrite = false) :
    m.dmErrorSeen = e.dmErrorSeen := by
  rw [L.dmErrorSeen_eq, dmErrorNow, L.memBits_eq, hread, hwrite, Bool.or_false, Bool.false_and, Bool.or_false]

end NoAccess

/-- Settles O43: NOP is neither a transfer of control nor a memory access, and has no destination. -/
theorem nopHasNoEffect : Obligations.NopHasNoEffect := by
  refine fun s => ⟨fun d e m w L => ?_, fun C => C.life .nop rfl rfl⟩
  obtain ⟨hpc, -⟩ := onlyBranchesAndJumpsMoveThePc .nop s d e m w L nofun nofun
  exact ⟨hpc, L.dm_eq_of_no_memWrite rfl, L.dmErrorSeen_eq_of_no_access rfl rfl,
    fun k => onlyTheDestinationRegisterChanges .nop s d e m w L k nofun⟩

end Sys2Proof.Machine

/-! SUPPORT. The outcomes of 60_exceptions.md: the faults of a tick with both PC selects set, and when a tick sets the
data-memory error mark. -/

namespace Sys2Proof.Machine

/-! ### The faults of a tick (R130) -/

/-- With both PC selects set a tick always faults. Nothing is flushed, so the fetch is latched, and its failure is recorded
too. -/
theorem edgeFault_some_iff_of_bothSelects {s : State} (hsel : s.bothSelects = true) (f : Fault) :
    edgeFault s = some f ↔ (f = .pcSrcException ∧ fetchIndex s.pc < 256) ∨
      (f = .pcSrcExceptionAndFetchOutOfRange ∧ 256 ≤ fetchIndex s.pc) := by
  have hflush : s.flush = false := by
    obtain ⟨-, -, hjump⟩ := (bothSelects_iff s).1 hsel
    rw [← Bool.not_eq_true, flush_iff, hjump]
    simp
  have hfails : s.fetchFails = true ↔ 256 ≤ fetchIndex s.pc := by
    rw [fetchFails_iff]
    exact and_iff_right hflush
  rw [edgeFault, if_pos hsel, ← Nat.not_le, ← hfails]
  cases s.fetchFails <;> simp [eq_comm]

/-- Settles O22: with both selects set the reason says whether the fetch failed too; otherwise a failing fetch is the only
reason, and it fails only when no taken branch flushes it. -/
theorem stepFaultsExactlyForTheRecordedCauses : Obligations.StepFaultsExactlyForTheRecordedCauses := by
  intro s f
  rw [step_eq_tick, tick_fault_iff, ← bothSelects_iff]
  cases hsel : s.bothSelects with
  | true =>
    obtain ⟨hbranch, heq, -⟩ := (bothSelects_iff s).1 hsel
    rw [edgeFault_some_iff_of_bothSelects hsel]
    simp [hbranch, heq, fetchIndex]
  | false =>
    rw [edgeFault_some_iff_of_not_bothSelects hsel, fetchFails_iff, ← flush_iff_of_not_bothSelects hsel]
    simp [fetchIndex]

/-! ### The error mark (R129) -/

/-- A tick meets a data-memory error exactly when a load or store is in MEM and its address is bad. -/
theorem dmErrorNow_iff (m : Memory) (M : ExMem) :
    dmErrorNow m M = true ↔ (M.mem.memRead = true ∨ M.mem.memWrite = true) ∧
      (M.aluResult.toNat % 4 ≠ 0 ∨ 4096 ≤ M.aluResult.toNat) := by
  rw [dmErrorNow, memRead_error, Bool.and_eq_true, Bool.or_eq_true, dmError_iff]

/-- Settles O31: the clock edge adds to the mark the error met in MEM, and nothing clears it. -/
theorem errorMarkIsSetByLoadsAndStoresOnly : Obligations.ErrorMarkIsSetByLoadsAndStoresOnly := by
  intro s t hstep
  obtain ⟨-, rfl⟩ := step_next_iff.1 hstep
  rw [commit_dmErrorSeen, Bool.or_eq_true, dmErrorNow_iff]

/-- The bundle of an instruction with no access address neither reads nor writes memory. -/
theorem no_memAccess_of_accessAddress_none {i : Instr} {s : State} (h : i.accessAddress s = none) :
    (ctlOf i).memRead = false ∧ (ctlOf i).memWrite = false := by
  cases i with
  | lw | sw => cases h
  | add | sub | and | or | slt | addi | beq | j | nop => exact ⟨rfl, rfl⟩

/-- Settles O47: an instruction with no access address accesses no memory, and a load or store has in MEM the address it
computes from the registers ID read. -/
theorem onlyBadAccessesSetTheMark : Obligations.OnlyBadAccessesSetTheMark := by
  intro i s d e m w L
  cases hea : i.accessAddress s with
  | none =>
    obtain ⟨hread, hwrite⟩ := no_memAccess_of_accessAddress_none hea
    rw [L.dmErrorSeen_eq_of_no_access hread hwrite]
    simp
  | some ea =>
    rw [L.dmErrorSeen_of_accessAddress hea, Bool.or_eq_true, dmError_iff]
    simp

end Sys2Proof.Machine

/-! SUPPORT. Reset and the exposed hazards of 70_reset_and_hazards.md: what ID reads, the life of the instruction behind
another, and the ticks of a state whose one pipeline register holds something else. -/

namespace Sys2Proof.Machine

/-! ### Reset (R146) -/

/-- Settles O52: reset is the launch of an empty program with no data preloaded. -/
theorem resetMeetsTheInvariant : Obligations.ResetMeetsTheInvariant := launch_inv [] State.reset.regs []

/-! ### Read and write-back in one cycle (R150) -/

/-- Settles O20: with no flush ID/EX takes what ID read from the register file before the edge. -/
theorem readInIdSeesTheValueBeforeWriteBack : Obligations.ReadInIdSeesTheValueBeforeWriteBack := by
  intro s t hstep hflush
  obtain ⟨-, hidEx⟩ := younger_continue_of_no_flush hflush hstep
  rw [hidEx]
  exact ⟨rfl, rfl⟩

/-! ### A load right behind a store (R151) -/

/-- The instruction fetched into IF/ID at the ID tick of another lives one tick behind it, if the other does not squash it. -/
theorem Life.behind {i j : Instr} {s d e m w v : State} (L : Life i s d e m w) (hdecode : decode d.ifId.instr = .ok j)
    (hflush : d.flush = false) (hstep : step w = .next v) : Life j d e m w v where
  unsquashed := hflush
  decoded := (stepRunsTheDecodedInstruction d j hdecode).symm.trans L.executed
  executed := L.accessed
  accessed := L.retired
  retired := hstep

/-- Settles O51: the load is in MEM one tick after the store, so it reads the memory that the store's MEM tick left. -/
theorem nextLoadSeesTheStore : Obligations.NextLoadSeesTheStore := by
  intro rt rs rt' rs' imm imm' s d e m w v L hdecode hstep hdm haddr hok
  have hflush : d.flush = false := flush_of_no_branch (congrArg Ctl.branch (ctl_of_unsquashed L.unsquashed L.decoded))
  have hload : Life (.lw rt' imm' rs') d e m w v := L.behind hdecode hflush hstep
  rw [hload.reg_of_load (congrArg some haddr) rfl rfl, memRead_of_ok hok]
  exact L.sw_dmWord hdm rfl hok

/-! ### A tick with other contents in one pipeline register (R149; 42_pipeline.md R111) -/

section OtherContents
variable {s t : State}

/-- With no flush, another instruction in ID leaves its own bundle and operands in ID/EX, and all else is the same. -/
theorem exec_other_of_no_flush {i : Instr} (hflush : s.flush = false) (hexec : exec i s = .next t) (j : Instr) :
    exec j s = .next { t with idEx := idStage (ctlOf j) (encode j) s.regs s.ifId.pcPlus4 } := by
  obtain ⟨hnone, rfl⟩ := exec_next_iff.1 hexec
  rw [← commit_idEx_of_no_flush _ _ _ hflush]
  exact exec_next_iff.2 ⟨hnone, (commit_eq_with_idEx ..).symm⟩

variable (hstep : step s = .next t)
include hstep

/-- With no transfer of control in EX, other contents of ID/EX that transfer none reach EX/MEM alone. -/
theorem step_with_idEx (hbranch : s.idEx.ctl.branch = false) (hjump : s.idEx.ctl.jump = false) {E : IdEx}
    (hbranch' : E.ctl.branch = false) (hjump' : E.ctl.jump = false) :
    step { s with idEx := E } = .next { t with exMem := exMemNext exFlush E } := by
  obtain ⟨hnone, rfl⟩ := step_next_iff.1 hstep
  have hflush : s.flush = false := flush_of_no_branch hbranch
  have hflush' : State.flush { s with idEx := E } = false := flush_of_no_branch hbranch'
  have hfetch : fetchIndex s.pc < 256 := by
    obtain ⟨-, hfetch⟩ := (edgeFault_none_iff s).1 hnone
    exact ((fetchFails_false_iff s).1 hfetch).resolve_left (hflush ▸ Bool.false_ne_true)
  have hpc : s.nextPc = State.nextPc { s with idEx := E } := by
    rw [nextPc_of_clear hbranch hjump, nextPc_of_clear hbranch' hjump']
  have hifId (ctl : Ctl) (w : Word) : (commit ctl w s).ifId = (commit ctl w { s with idEx := E }).ifId :=
    (commit_ifId_of_no_flush ctl w s hflush).trans (commit_ifId_of_no_flush ctl w _ hflush').symm
  have hidEx (ctl : Ctl) (w : Word) : (commit ctl w s).idEx = (commit ctl w { s with idEx := E }).idEx :=
    (commit_idEx_of_no_flush ctl w s hflush).trans (commit_idEx_of_no_flush ctl w _ hflush').symm
  exact step_next_iff.2 ⟨edgeFault_none_of_clear hbranch' hjump' hfetch,
    (State.mk.injEq ..).mpr ⟨rfl, hpc, hifId _ _, hidEx _ _, rfl, rfl, rfl, rfl, rfl, rfl⟩⟩

/-- With no store in MEM, other contents of EX/MEM that store nothing reach MEM/WB and the mark alone. -/
theorem step_with_exMem (hwrite : s.exMem.mem.memWrite = false) {M : ExMem} (hwrite' : M.mem.memWrite = false) :
    step { s with exMem := M } =
      .next { t with memWb := memWbNext s.dm M, dmErrorSeen := s.dmErrorSeen || dmErrorNow s.dm M } := by
  obtain ⟨hnone, rfl⟩ := step_next_iff.1 hstep
  have hdm : dmNext s.dm s.exMem = dmNext s.dm M :=
    (dmNext_of_idle (.inl hwrite)).trans (dmNext_of_idle (.inl hwrite')).symm
  exact step_next_iff.2 ⟨hnone, (State.mk.injEq ..).mpr ⟨rfl, rfl, rfl, rfl, rfl, rfl, rfl, hdm, rfl, rfl⟩⟩

/-- The contents of MEM/WB reach the register file alone, and the mark only itself. -/
theorem step_with_memWb (W : MemWb) (mark : Bool) :
    step { s with memWb := W, dmErrorSeen := mark } =
      .next { t with regs := wbRegs W s.regs, dmErrorSeen := mark || dmErrorNow s.dm s.exMem } := by
  obtain ⟨hnone, rfl⟩ := step_next_iff.1 hstep
  exact step_next_iff.2 ⟨hnone, rfl⟩

end OtherContents

/-! ### No forwarding (R149) -/

/-- An instruction with a destination register neither transfers control nor stores. -/
theorem ctlOf_of_destReg {i : Instr} {k : BitVec 2} (h : i.destReg = some k) :
    (ctlOf i).branch = false ∧ (ctlOf i).jump = false ∧ (ctlOf i).memWrite = false := by
  cases i with
  | add | sub | and | or | slt | addi | lw => exact ⟨rfl, rfl, rfl⟩
  | sw | beq | j | nop => cases h

/-- Settles O50: up to its WB tick the writer and a NOP in its place differ only in the pipeline register they stand in, and
in the mark; the NOP's WB tick writes no register, the writer's only its destination. -/
theorem writerIsInvisibleUntilWriteBack : Obligations.WriterIsInvisibleUntilWriteBack := by
  intro i dest s d e m w L hdest
  obtain ⟨hbranch, hjump, hwrite⟩ := ctlOf_of_destReg hdest
  have hctl : d.idEx.ctl = ctlOf i := ctl_of_unsquashed L.unsquashed L.decoded
  refine ⟨_, _, _, _,
    { unsquashed := L.unsquashed
      decoded := exec_other_of_no_flush L.unsquashed L.decoded .nop
      executed := step_with_idEx L.executed (hctl ▸ hbranch) (hctl ▸ hjump) rfl rfl
      accessed := step_with_exMem L.accessed (L.memBits_eq ▸ hwrite) rfl
      retired := step_with_memWb L.retired _ _ },
    rfl, rfl, rfl, fun k hk => ?_, rfl, rfl, rfl, rfl⟩
  have hkeep : w.reg k = m.reg k :=
    onlyTheDestinationRegisterChanges i s d e m w L k fun h => hk (Option.some.inj (h.symm.trans hdest))
  rw [hkeep, State.reg, wbRegs_of_idle rfl, State.reg]

end Sys2Proof.Machine

/-! SUPPORT. The carry_out of 40_circuit_primitives.md (R83, in the spec's choice D17). -/

namespace Sys2Proof.Machine

/-- The carry out of the subtracting adder is its missing borrow: `a + (2^n - 1 - b) + 1` reaches `2^n` exactly when `b ≤ a`. -/
theorem carryOut_not_true {n : Nat} (a b : BitVec n) : carryOut a (~~~b) true = decide (b.toNat ≤ a.toNat) := by
  rw [carryOut_eq, BitVec.toNat_not, Bool.toNat_true, decide_eq_decide]
  have hb : b.toNat < 2 ^ n := b.isLt
  omega

/-- Settles O7: SUB and SLT show the subtracting adder's carry, the logic operations and NULL none. -/
theorem carryOutOfSubIsUnsignedGreaterEqual : Obligations.CarryOutOfSubIsUnsignedGreaterEqual := by
  intro n a b cin
  refine ⟨carryOut_not_true a b, carryOut_not_true a b, fun op hop => ?_⟩
  rcases hop with rfl | rfl | rfl | rfl | rfl <;> rfl

end Sys2Proof.Machine
